-- ==== Sys2Proof/Word.lean ====
section
/-!
DEFINITION. The data the VerusHash engine works on: bytes, and byte strings of the fixed lengths that
spec/00_scope.md rules R7, R9 and R10 name (lane, block, digest).
-/

namespace Sys2Proof

/-- A byte: 8 bits, bit 0 the least significant (R9). -/
abbrev Byte := BitVec 8

/-- A lane: 16 bytes in index order, 128 bits (R7, R10). -/
abbrev Lane := Vector Byte 16

/-- A block or a HashState: 64 bytes, "the same kind of object" (R10). -/
abbrev Block := Vector Byte 64

/-- A digest, and the output of the permutation: 32 bytes (R7). -/
abbrev Digest := Vector Byte 32

/-- The byte string of `n` zero bytes, `zeros(n)` (R9), as a fixed-length string. -/
def zeroBytes (n : Nat) : Vector Byte n := Vector.replicate n 0

end Sys2Proof
end

