-- ==== Sys2Proof/Machine/Bytes.lean ====
section
/-!
DEFINITION. Byte strings: little-endian integers (rule R11), lanes and halves of a block (R10), byte-wise XOR (R11),
and reading and writing a run of bytes of a byte space (R12, R61, R62, R65).
-/

namespace Sys2Proof.Machine

/-- The `n` bytes of `v` modulo `2^(8n)`, least significant first: `LE32` is `leBytes 4`, `LE64` is `leBytes 8`
(R11). -/
def leBytes : Nat → Nat → List Byte
  | 0, _ => []
  | n + 1, v => BitVec.ofNat 8 v :: leBytes n (v / 256)

/-- The little-endian value of a byte string, the sum of `byte[k] * 2^(8k)` (R90). -/
def leNat : List Byte → Nat
  | [] => 0
  | b :: bs => b.toNat + 256 * leNat bs

/-- The byte string `zeros(n)` (R9). -/
def zeros (n : Nat) : List Byte := List.replicate n 0

/-- Byte-by-byte exclusive or (R11). -/
def xorBytes {n : Nat} (a b : Vector Byte n) : Vector Byte n :=
  Vector.zipWith (fun x y => x ^^^ y) a b

/-- Lane `i` of a block: bytes `16i .. 16i+15` (R10). -/
def laneOf (b : Block) (i : Fin 4) : Lane :=
  Vector.ofFn fun j => b[16 * i.val + j.val]'(by omega)

/-- The block `lane[0] ++ lane[1] ++ lane[2] ++ lane[3]` (R21). -/
def blockOfLanes (x : Vector Lane 4) : Block :=
  Vector.ofFn fun j => (x[j.val / 16]'(by omega))[j.val % 16]'(by omega)

/-- The first 64 bytes of a byte string as a block. Every use has 64 of them; a missing byte would read as 0. -/
def blockOfBytes (l : List Byte) : Block := Vector.ofFn fun j => l.getD j.val 0

/-- `MemRead(PAY, addr, n)`: the `n` bytes of the payload at `addr` (R12, R61). -/
def readPay (pay : List Byte) (addr n : Nat) : List Byte := (pay.drop addr).take n

/-- `MemWrite(BUF, addr, |v|, v)`: the buffer with the bytes of `v` written from `addr` on (R12, R62). Every use stays
inside 0..63; a byte past the end would be dropped. -/
def writeBuf (b : Block) (addr : Nat) (v : List Byte) : Block :=
  Vector.ofFn fun j => if addr ≤ j.val ∧ j.val < addr + v.length then v.getD (j.val - addr) 0 else b[j]

end Sys2Proof.Machine
end

