-- ==== Sys2Proof/Syntax.lean ====
section
/-!
DEFINITION. The commands of the engine, one constructor per row of spec/opcode_table.json (rule R95). A command
carries the operand bytes `HND` and `ARG` and the payload as the packet gives them (R90): the opcode is recognised
first and the operand checks are made after it (R95, R96), so a command with illegal operands is still that command
and its meaning answers the error.
-/

namespace Sys2Proof

/-- The eleven commands (R95). `hnd` = packet byte 1, `arg` = packet byte 2, `pay` = the payload, `LEN` its length. -/
inductive Instr where
  /-- `HASH`, opcode 0x01 (R160). -/
  | hash (hnd arg : Byte) (pay : List Byte)
  /-- `CREATE`, opcode 0x02 (R156). -/
  | create (hnd arg : Byte) (pay : List Byte)
  /-- `UPDATE`, opcode 0x03 (R157). -/
  | update (hnd arg : Byte) (pay : List Byte)
  /-- `FINALIZE`, opcode 0x04 (R158). -/
  | finalize (hnd arg : Byte) (pay : List Byte)
  /-- `DESTROY`, opcode 0x05 (R159). -/
  | destroy (hnd arg : Byte) (pay : List Byte)
  /-- `PERMUTE`, opcode 0x06 (R138). -/
  | permute (hnd arg : Byte) (pay : List Byte)
  /-- `HASACCEL`, opcode 0x07 (R181). -/
  | hasaccel (hnd arg : Byte) (pay : List Byte)
  /-- `HASWIDE`, opcode 0x08 (R182). -/
  | haswide (hnd arg : Byte) (pay : List Byte)
  /-- `PARALLEL`, opcode 0x09 (R183). -/
  | parallel (hnd arg : Byte) (pay : List Byte)
  /-- `SETPATH`, opcode 0x0A (R184). -/
  | setpath (hnd arg : Byte) (pay : List Byte)
  /-- `DBGRD`, opcode 0x0B (R185). -/
  | dbgrd (hnd arg : Byte) (pay : List Byte)
  deriving DecidableEq, Repr

/-- The `HND` field of a command (R90). -/
def Instr.hnd : Instr → Byte
  | .hash h _ _ => h
  | .create h _ _ => h
  | .update h _ _ => h
  | .finalize h _ _ => h
  | .destroy h _ _ => h
  | .permute h _ _ => h
  | .hasaccel h _ _ => h
  | .haswide h _ _ => h
  | .parallel h _ _ => h
  | .setpath h _ _ => h
  | .dbgrd h _ _ => h

/-- The `ARG` field of a command (R90). -/
def Instr.arg : Instr → Byte
  | .hash _ a _ => a
  | .create _ a _ => a
  | .update _ a _ => a
  | .finalize _ a _ => a
  | .destroy _ a _ => a
  | .permute _ a _ => a
  | .hasaccel _ a _ => a
  | .haswide _ a _ => a
  | .parallel _ a _ => a
  | .setpath _ a _ => a
  | .dbgrd _ a _ => a

/-- The payload of a command (R90). -/
def Instr.pay : Instr → List Byte
  | .hash _ _ p => p
  | .create _ _ p => p
  | .update _ _ p => p
  | .finalize _ _ p => p
  | .destroy _ _ p => p
  | .permute _ _ p => p
  | .hasaccel _ _ p => p
  | .haswide _ _ p => p
  | .parallel _ _ p => p
  | .setpath _ _ p => p
  | .dbgrd _ _ p => p

end Sys2Proof
end

