-- ==== Sys2Proof/Decode.lean ====
section
/-!
DEFINITION. From bytes to commands and back: framing (R90, R92), field extraction (R91), opcode recognition (R95,
R96 step 1), and the encoder. Framing does not depend on validity (R92), and decoding depends on no state (R70): the
gate `TEST_HOOK_EN` of `DBGRD`, a parameter, is checked by its meaning, with the same error (R96 step 1, R185).
-/

namespace Sys2Proof

open Machine (leBytes leNat)

/-- The number of header bytes of a packet (R90). -/
def headerBytes : Nat := 12

/-- A framed command packet: the four bytes of `CMD` and the payload (R90). -/
structure Packet where
  /-- Packet byte 0. -/
  opc : Byte
  /-- Packet byte 1. -/
  hnd : Byte
  /-- Packet byte 2. -/
  arg : Byte
  /-- Packet byte 3. -/
  rsv : Byte
  /-- The `LEN` bytes after the header. -/
  pay : List Byte
  deriving DecidableEq, Repr

/-- Why a framed packet is no command: the causes of step 1 of rule R96 that the packet alone shows. Both answer
`ERR_ILLEGAL` (R100). -/
inductive DecodeError where
  /-- `RSV` is not 0. -/
  | reservedByte (rsv : Byte)
  /-- `OPC` is not one of 0x01 to 0x0B. -/
  | unknownOpcode (opc : Byte)
  deriving DecidableEq, Repr

/-- What the head of a byte stream is. -/
inductive Fetched where
  /-- Fewer than `12 + LEN` bytes have arrived: not a command (R92). -/
  | incomplete
  /-- A whole packet that names no command, and the bytes after it. -/
  | rejected (e : DecodeError) (rest : List Byte)
  /-- A whole packet that names a command, and the bytes after it. -/
  | command (i : Instr) (rest : List Byte)
  deriving DecidableEq, Repr

/-- Framing: 12 header bytes, then exactly `LEN` payload bytes, whatever the packet says (R92). -/
def frame (bs : List Byte) : Option (Packet × List Byte) :=
  match bs with
  | opc :: hnd :: arg :: rsv :: l0 :: l1 :: l2 :: l3 :: l4 :: l5 :: l6 :: l7 :: body =>
    let len := leNat [l0, l1, l2, l3, l4, l5, l6, l7]
    if len ≤ body.length then some (⟨opc, hnd, arg, rsv, body.take len⟩, body.drop len) else none
  | _ => none

/-- Step 1 of rule R96 on a framed packet: `RSV`, then the opcode map of rule R95. -/
def decode (p : Packet) : Except DecodeError Instr :=
  if p.rsv = 0 then
    match p.opc.toNat with
    | 0x01 => .ok (.hash p.hnd p.arg p.pay)
    | 0x02 => .ok (.create p.hnd p.arg p.pay)
    | 0x03 => .ok (.update p.hnd p.arg p.pay)
    | 0x04 => .ok (.finalize p.hnd p.arg p.pay)
    | 0x05 => .ok (.destroy p.hnd p.arg p.pay)
    | 0x06 => .ok (.permute p.hnd p.arg p.pay)
    | 0x07 => .ok (.hasaccel p.hnd p.arg p.pay)
    | 0x08 => .ok (.haswide p.hnd p.arg p.pay)
    | 0x09 => .ok (.parallel p.hnd p.arg p.pay)
    | 0x0A => .ok (.setpath p.hnd p.arg p.pay)
    | 0x0B => .ok (.dbgrd p.hnd p.arg p.pay)
    | _ => .error (.unknownOpcode p.opc)
  else .error (.reservedByte p.rsv)

/-- The decoder: total on every byte string (R92, R96 step 1). -/
def decodeBytes (bs : List Byte) : Fetched :=
  match frame bs with
  | none => .incomplete
  | some (p, rest) =>
    match decode p with
    | .error e => .rejected e rest
    | .ok i => .command i rest

/-- The `OPC` byte of a command (R95). -/
def Instr.opcode : Instr → Byte
  | .hash _ _ _ => 0x01
  | .create _ _ _ => 0x02
  | .update _ _ _ => 0x03
  | .finalize _ _ _ => 0x04
  | .destroy _ _ _ => 0x05
  | .permute _ _ _ => 0x06
  | .hasaccel _ _ _ => 0x07
  | .haswide _ _ _ => 0x08
  | .parallel _ _ _ => 0x09
  | .setpath _ _ _ => 0x0A
  | .dbgrd _ _ _ => 0x0B

/-- The packet of a command: `OPC`, `HND`, `ARG`, `RSV = 0`, `LEN` little-endian, payload (R90, R91). -/
def encode (i : Instr) : List Byte :=
  [i.opcode, i.hnd, i.arg, 0] ++ leBytes 8 i.pay.length ++ i.pay

/-- The packet whose low `nbits` bits (bit 0 the least significant of the first byte) are those of `w` and whose other
bits are 0: 12 header bytes and the `LEN` payload bytes the header asks for. -/
def tablePacket (nbits w : Nat) : List Byte :=
  let v := w % 2 ^ nbits
  let header := leBytes headerBytes v
  header ++ leBytes (leNat (header.drop 4)) (v / 2 ^ (8 * headerBytes))

/-- The command the decoder reads from a word of spec/opcode_table.json; `none` where it refuses. -/
def decodeTableWord (nbits w : Nat) : Option Instr :=
  match decodeBytes (tablePacket nbits w) with
  | .command i _ => some i
  | .rejected _ _ => none
  | .incomplete => none

end Sys2Proof
end

