-- ==== Sys2Proof/Config.lean ====
section
/-!
DEFINITION. The implementation parameters of spec/00_scope.md rule R8: a record of all of them but `N_CTX`
(the number of slots is the length of `State.slots`), and this machine's own values. A parameter whose default is
OPEN is an opaque constant, so nothing can be proved of its value; a parameter with a decided default has it.
-/

namespace Sys2Proof

/-- `ROT_STEP`, 1 or 3 (R8): the direction of the cyclic lane rotation. -/
inductive RotStep where
  | one
  | three
  deriving DecidableEq, Repr, Inhabited

/-- The parameters of rule R8 that commands read. They never change after reset (R20, R36). -/
structure Params where
  /-- `IV[0..3]`: the fixed initial HashState, by lane (R36). -/
  iv : Vector Lane 4
  /-- `RC[0..7]`: the round-constant table (R36). -/
  rc : Vector Lane 8
  /-- `LANE_OFFSET(i)`, by lane position (R127). -/
  laneOffset : Vector (Fin 8) 4
  /-- `ROT_STEP` (R128). -/
  rotStep : RotStep
  /-- `ABSORB_WRITEBACK`: whether the block XOR stays in lanes 2 and 3 (R151). -/
  absorbWriteback : Bool
  /-- `HW_ACCEL_PRESENT`: whether the `ACCEL` datapath exists (R33, R135). -/
  hwAccelPresent : Bool
  /-- `WIDE_VECTOR_PRESENT`: the advisory capability (R33). -/
  wideVectorPresent : Bool
  /-- `PAR_HINT`: the parallelism hint (R34). -/
  parHint : BitVec 32
  /-- `TEST_HOOK_EN`: whether `DBGRD` is decoded (R185). -/
  testHookEn : Bool
  deriving DecidableEq, Repr

/-- `IV`, OPEN (R8, 92 D2): no value is in the spec. -/
opaque Config.iv : Vector Lane 4

/-- `RC`, OPEN (R8, 92 D2): no value is in the spec. -/
opaque Config.rc : Vector Lane 8

/-- The number of the last context slot, `N_CTX - 1`: `N_CTX` is OPEN with `1 ≤ N_CTX ≤ 254` (R8, 92 D11). -/
opaque Config.lastSlot : Fin 254

/-- `N_CTX`, the number of context slots (R8). -/
def Config.nCtx : Nat := Config.lastSlot.val + 1

/-- `HW_ACCEL_PRESENT`, OPEN (R8, 92 D14). -/
opaque Config.hwAccelPresent : Bool

/-- `WIDE_VECTOR_PRESENT`, OPEN (R8, 92 D14). -/
opaque Config.wideVectorPresent : Bool

/-- `PAR_HINT`, OPEN (R8, 92 D14); zero is not excluded (R183). -/
opaque Config.parHint : BitVec 32

/-- `TEST_HOOK_EN`, OPEN (R8, 92 D16). -/
opaque Config.testHookEn : Bool

/-- The decided default `LANE_OFFSET(i) = i` (R8, R127). -/
def Config.laneOffset : Vector (Fin 8) 4 := #v[0, 1, 2, 3]

/-- The parameters of this machine: the open ones opaque, the decided ones at the default of R8
(`LANE_OFFSET(i) = i`, `ROT_STEP = 1`, `ABSORB_WRITEBACK = true`; 90 C2 for the last). -/
def Config.params : Params where
  iv := Config.iv
  rc := Config.rc
  laneOffset := Config.laneOffset
  rotStep := .one
  absorbWriteback := true
  hwAccelPresent := Config.hwAccelPresent
  wideVectorPresent := Config.wideVectorPresent
  parHint := Config.parHint
  testHookEn := Config.testHookEn

end Sys2Proof
end

