-- ==== Sys2Proof/Machine/State.lean ====
section
/-!
DEFINITION. The state of the engine (spec/10_state.md): context slots, the scratch context, the path-forcing mode and
the selected datapath; beside them the parameters the machine is built with, and the two ends of the command
interface (bytes not yet consumed, responses given). Plain data.
-/

namespace Sys2Proof.Machine

/-- `PHASE[h]` (R26): the value 3 is reserved and never held (93 X1), so there are three values. -/
inductive Phase where
  | free
  | active
  | finalized
  deriving DecidableEq, Repr

/-- `CTRL.FORCE` (R32): the value 3 is never held (93 X2). -/
inductive Force where
  | auto
  | portable
  | accel
  deriving DecidableEq, Repr

/-- One of the two datapaths of the Permutation Core; `PSEL.ACTIVE` names one (R35, R133). -/
inductive Path where
  | portable
  | accel
  deriving DecidableEq, Repr

/-- The five registers of a context, a slot or the scratch context (R20 to R26). -/
structure Ctx where
  /-- `S[h]`, the HashState, 512 bits (R21). -/
  hashState : Block
  /-- `BUF[h]`, the block buffer; bytes at `CNT[h]` and above are stale (R23). -/
  buf : Block
  /-- `CNT[h]`, 6 bits (R24). -/
  cnt : BitVec 6
  /-- `TOT[h]`, 64 bits (R25). -/
  tot : BitVec 64
  /-- `PHASE[h]` (R26). -/
  phase : Phase
  deriving DecidableEq, Repr

/-- A context that is all zero and `FREE` (R38). -/
def Ctx.zero : Ctx := ⟨zeroBytes 64, zeroBytes 64, 0, 0, .free⟩

/-- The six error statuses (R99, R201). -/
inductive Err where
  | illegal
  | badLen
  | badHandle
  | finalized
  | noContext
  | unsupported
  deriving DecidableEq, Repr

/-- A response (R97): `OK` with its payload, or an error, which carries no data (R206). -/
inductive Response where
  | ok (payload : List Byte)
  | err (e : Err)
  deriving DecidableEq, Repr

/-- The machine. Its number of context slots `N_CTX` is the length of `slots`, which no command changes. -/
structure State where
  /-- The build parameters (R8): configuration, written by nothing (R20, R36). `CAP` and `PARH` are hardwired from
  them (R33, R34). -/
  params : Params
  /-- The context slots, slot 0 first (R20). -/
  slots : List Ctx
  /-- The scratch context `SCR` (R28). -/
  scr : Ctx
  /-- `CTRL.FORCE` (R32). -/
  force : Force
  /-- `PSEL.ACTIVE` (R35). -/
  active : Path
  /-- The model's own: the command bytes the hosts have sent and the engine has not consumed, in the one total order
  the engine sees (R66, R92). -/
  input : List Byte
  /-- The model's own: the responses given so far, oldest first (R97). -/
  output : List Response
  deriving DecidableEq, Repr

/-- Why a step may stop with a fault: never. The type has no constructor, because every failure of this engine is a
misuse error that is answered with a status (R200, R209) and the engine never halts (R206). -/
inductive Fault where
  deriving DecidableEq, Repr

/-- Why a step may be refused. -/
inductive Refusal where
  /-- Raised by an arm of `exec` whose command has no meaning yet. No arm raises it: every command has its meaning.
  Safe: nothing can be proved of a refused command. -/
  | notModelled (mnemonic : String)
  deriving DecidableEq, Repr

/-- The state right after reset of a machine with parameters `p` and `n` context slots (R38, R231, R232): every
context zero and `FREE`, `CTRL.FORCE = AUTO`, `PSEL.ACTIVE = CAP.HW_ACCEL`; no command byte has arrived and no response
has been given. -/
def State.resetWith (p : Params) (n : Nat) : State where
  params := p
  slots := List.replicate n Ctx.zero
  scr := Ctx.zero
  force := .auto
  active := if p.hwAccelPresent then .accel else .portable
  input := []
  output := []

/-- The machine right after reset (R38), with the open parameters of rule R8 left open. -/
def State.reset : State := State.resetWith Config.params Config.nCtx

end Sys2Proof.Machine
end

