-- ==== Sys2Proof/Machine/Flags.lean ====
section
/-!
DEFINITION. The engine has no status flags (R29): no command sets a flag, and the outcome of a command is only in its
response. What stands nearest is `PHASE[h]` and the four control and status registers (R31), whose values as numbers
are here, with the selection that sets `PSEL.ACTIVE`.
-/

namespace Sys2Proof.Machine

/-- The value of `PHASE[h]` (R26). -/
def Phase.code : Phase → Byte
  | .free => 0
  | .active => 1
  | .finalized => 2

/-- The value of the field `FORCE` (R32). -/
def Force.code : Force → Nat
  | .auto => 0
  | .portable => 1
  | .accel => 2

/-- The value of the field `ACTIVE` (R35). -/
def Path.code : Path → Nat
  | .portable => 0
  | .accel => 1

/-- `select(CTRL.FORCE, CAP.HW_ACCEL)` (R35). -/
def selectPath : Force → Bool → Path
  | .auto, true => .accel
  | .auto, false => .portable
  | .portable, _ => .portable
  | .accel, _ => .accel

/-- Register 0, `CTRL`: `FORCE` in bits [1:0], the others 0 (R31, R32). -/
def State.ctrl (s : State) : BitVec 32 := BitVec.ofNat 32 s.force.code

/-- Register 1, `CAP`: bit 0 `HW_ACCEL`, bit 1 `WIDE_VEC`, the others 0; hardwired (R31, R33). -/
def State.cap (s : State) : BitVec 32 :=
  BitVec.ofNat 32 (s.params.hwAccelPresent.toNat + 2 * s.params.wideVectorPresent.toNat)

/-- Register 2, `PARH`: the parallelism hint; hardwired (R34). -/
def State.parh (s : State) : BitVec 32 := s.params.parHint

/-- Register 3, `PSEL`: `ACTIVE` in bit 0, the others 0 (R31, R35). -/
def State.psel (s : State) : BitVec 32 := BitVec.ofNat 32 s.active.code

end Sys2Proof.Machine
end

