-- ==== Sys2Proof/Machine/Operands.lean ====
section
/-!
DEFINITION. Operand forms and operand checks: the `HND`, `ARG` and `LEN` columns of rule R95 for each command, steps 2
and 3 of rule R96 over them, and the handle checks of steps 4 and 5 (R71, R202).
-/

namespace Sys2Proof.Machine

/-- A `LEN` column of R95 (R93). -/
inductive LenForm where
  /-- Any length. -/
  | any
  /-- Exactly `n` bytes. -/
  | exactly (n : Nat)
  deriving DecidableEq, Repr

/-- The operand columns of one row of R95. -/
structure OperandForm where
  /-- Whether `HND` is a handle; otherwise it must be 0. -/
  takesHandle : Bool
  /-- The largest `ARG`: 3 for `SETPATH`, 0 elsewhere. -/
  maxArg : Nat
  /-- The payload lengths accepted. -/
  len : LenForm
  deriving DecidableEq, Repr

/-- The row of `HASH` (R95, R160). -/
def formHash : OperandForm := ⟨false, 0, .any⟩
/-- The row of `CREATE` (R95, R156). -/
def formCreate : OperandForm := ⟨false, 0, .exactly 0⟩
/-- The row of `UPDATE` (R95, R157). -/
def formUpdate : OperandForm := ⟨true, 0, .any⟩
/-- The row of `FINALIZE` (R95, R158). -/
def formFinalize : OperandForm := ⟨true, 0, .exactly 0⟩
/-- The row of `DESTROY` (R95, R159). -/
def formDestroy : OperandForm := ⟨true, 0, .exactly 0⟩
/-- The row of `PERMUTE` (R95, R138). -/
def formPermute : OperandForm := ⟨false, 0, .exactly 64⟩
/-- The row of `HASACCEL` (R95, R181). -/
def formHasaccel : OperandForm := ⟨false, 0, .exactly 0⟩
/-- The row of `HASWIDE` (R95, R182). -/
def formHaswide : OperandForm := ⟨false, 0, .exactly 0⟩
/-- The row of `PARALLEL` (R95, R183). -/
def formParallel : OperandForm := ⟨false, 0, .exactly 0⟩
/-- The row of `SETPATH` (R95, R184). -/
def formSetpath : OperandForm := ⟨false, 3, .exactly 0⟩
/-- The row of `DBGRD` (R95, R185). -/
def formDbgrd : OperandForm := ⟨true, 0, .exactly 0⟩

/-- Whether a payload length is accepted (R93). -/
def LenForm.accepts : LenForm → Nat → Bool
  | .any, _ => true
  | .exactly n, len => len == n

/-- Steps 2 and 3 of rule R96: `HND` and `ARG` first (`ERR_ILLEGAL`), then `LEN` (`ERR_BAD_LEN`). -/
def operandError (f : OperandForm) (hnd arg : Byte) (len : Nat) : Option Err :=
  if (f.takesHandle = false ∧ hnd ≠ 0) ∨ f.maxArg < arg.toNat then some .illegal
  else if f.len.accepts len = false then some .badLen
  else none

/-- The slot a handle names; `none` where `HND ≥ N_CTX` (R71). -/
def State.slot? (s : State) (hnd : Byte) : Option Ctx := s.slots[hnd.toNat]?

/-- The context `UPDATE` and `FINALIZE` work on (R96 steps 4 and 5, R202): it must be `ACTIVE`. -/
def State.activeSlot (s : State) (hnd : Byte) : Except Err Ctx :=
  match s.slot? hnd with
  | none => .error .badHandle
  | some c =>
    match c.phase with
    | .free => .error .badHandle
    | .finalized => .error .finalized
    | .active => .ok c

/-- The context `DESTROY` works on (R96 step 4, R202): it must not be `FREE`. -/
def State.takenSlot (s : State) (hnd : Byte) : Except Err Ctx :=
  match s.slot? hnd with
  | none => .error .badHandle
  | some c =>
    match c.phase with
    | .free => .error .badHandle
    | .finalized => .ok c
    | .active => .ok c

/-- The smallest slot number whose context is `FREE` (R156). -/
def State.smallestFree (s : State) : Option Nat := s.slots.findIdx? fun c => c.phase == .free

end Sys2Proof.Machine
end

