-- ==== Sys2Proof/Machine/Permutation.lean ====
section
/-!
DEFINITION. The Permutation Core (spec/40_permutation.md): the AES round step in the two forms rule R124 gives of its
S-box, one for each datapath, and the function `P` of rule R131.
-/

namespace Sys2Proof.Machine

/-! ### Bytes as elements of GF(2^8) -/

/-- `xt`, multiplication by 2 with the reduction constant `0x1B` (R125). -/
def xtime (v : Byte) : Byte := if v.getLsbD 7 then (v <<< 1) ^^^ 0x1B else v <<< 1

/-- `m3(v) = xt(v) xor v` (R125). -/
def mul3 (v : Byte) : Byte := xtime v ^^^ v

/-- The low `n` bits of `b` times `a` in GF(2^8) modulo `x^8 + x^4 + x^3 + x + 1` (R124). -/
def gfMulLow : Nat → Byte → Byte → Byte
  | 0, _, _ => 0
  | n + 1, a, b => (if b.getLsbD 0 then a else 0) ^^^ gfMulLow n (xtime a) (b >>> 1)

/-- The product in GF(2^8) modulo `x^8 + x^4 + x^3 + x + 1` (R124). -/
def gfMul (a b : Byte) : Byte := gfMulLow 8 a b

/-- `inv(v)`, the multiplicative inverse with `inv(0) = 0` (R124), as the power `v^254`. -/
def gfInv (v : Byte) : Byte :=
  let v2 := gfMul v v
  let v3 := gfMul v2 v
  let v6 := gfMul v3 v3
  let v12 := gfMul v6 v6
  let v15 := gfMul v12 v3
  let v30 := gfMul v15 v15
  let v60 := gfMul v30 v30
  let v120 := gfMul v60 v60
  let v126 := gfMul v120 v6
  let v127 := gfMul v126 v
  gfMul v127 v127

/-- `A(u)`, the affine map of the S-box (R124). -/
def sboxAffine (u : Byte) : Byte :=
  u ^^^ u.rotateLeft 1 ^^^ u.rotateLeft 2 ^^^ u.rotateLeft 3 ^^^ u.rotateLeft 4 ^^^ 0x63

/-! ### The S-box, in both forms of rule R124 -/

/-- Row `x` of the table of rule R124: the entries for bytes `0xX0` to `0xXF`, the first in the highest byte. -/
def sboxRow : Nat → Nat
  | 0x0 => 0x637c777bf26b6fc53001672bfed7ab76
  | 0x1 => 0xca82c97dfa5947f0add4a2af9ca472c0
  | 0x2 => 0xb7fd9326363ff7cc34a5e5f171d83115
  | 0x3 => 0x04c723c31896059a071280e2eb27b275
  | 0x4 => 0x09832c1a1b6e5aa0523bd6b329e32f84
  | 0x5 => 0x53d100ed20fcb15b6acbbe394a4c58cf
  | 0x6 => 0xd0efaafb434d338545f9027f503c9fa8
  | 0x7 => 0x51a3408f929d38f5bcb6da2110fff3d2
  | 0x8 => 0xcd0c13ec5f974417c4a77e3d645d1973
  | 0x9 => 0x60814fdc222a908846eeb814de5e0bdb
  | 0xA => 0xe0323a0a4906245cc2d3ac629195e479
  | 0xB => 0xe7c8376d8dd54ea96c56f4ea657aae08
  | 0xC => 0xba78252e1ca6b4c6e8dd741f4bbd8b8a
  | 0xD => 0x703eb5664803f60e613557b986c11d9e
  | 0xE => 0xe1f8981169d98e949b1e87e9ce5528df
  | 0xF => 0x8ca1890dbfe6426841992d0fb054bb16
  | _ => 0

/-- `SBOX[v]` by the table of rule R124: row `v[7:4]`, column `v[3:0]`. -/
def sboxTable (v : Byte) : Byte :=
  BitVec.ofNat 8 (sboxRow (v.toNat / 16) >>> (8 * (15 - v.toNat % 16)))

/-- `SBOX[v] = A(inv(v))` by the formula of rule R124. -/
def sboxFormula (v : Byte) : Byte := sboxAffine (gfInv v)

/-- The S-box as a datapath computes it. The spec leaves the form to the datapath (R134, R135); the model gives
`ACCEL` the table and `PORTABLE` the formula (bit-sliced logic). DESIGN CHOICE, safe: log entry 4. -/
def subByte : Path → Byte → Byte
  | .accel => sboxTable
  | .portable => sboxFormula

/-! ### The AES round step -/

/-- `ShiftRows`: `b[r + 4c] = a[r + 4((c + r) mod 4)]` (R123). -/
def shiftRows (a : Lane) : Lane :=
  Vector.ofFn fun i => a[i.val % 4 + 4 * ((i.val / 4 + i.val % 4) % 4)]'(by omega)

/-- `SubBytes`: every byte through the S-box (R124). -/
def subBytes (path : Path) (b : Lane) : Lane := b.map (subByte path)

/-- `MixColumns` (R125): in column `c`, row `r` is `m2` of row `r`, `m3` of row `r+1`, and rows `r+2` and `r+3`
(rows modulo 4), which is each of the four lines of the rule. -/
def mixColumns (b : Lane) : Lane :=
  Vector.ofFn fun i =>
    xtime (b[4 * (i.val / 4) + i.val % 4]'(by omega)) ^^^
    mul3 (b[4 * (i.val / 4) + (i.val + 1) % 4]'(by omega)) ^^^
    b[4 * (i.val / 4) + (i.val + 2) % 4]'(by omega) ^^^
    b[4 * (i.val / 4) + (i.val + 3) % 4]'(by omega)

/-- `AESR(a, k) = MixColumns(SubBytes(ShiftRows(a))) xor k` (R122, R126). -/
def aesRound (path : Path) (a k : Lane) : Lane :=
  xorBytes (mixColumns (subBytes path (shiftRows a))) k

/-! ### The round loop and the function P -/

/-- The constant the lane at position `i` uses in round `r`: `RC[(r + LANE_OFFSET(i)) mod 8]` (R127). -/
def roundConst (p : Params) (r : Nat) (i : Fin 4) : Lane :=
  p.rc[(r + (p.laneOffset[i]).val) % 8]'(by omega)

/-- `ROT_STEP` as a number (R8). -/
def rotStepNat : RotStep → Nat
  | .one => 1
  | .three => 3

/-- The lane rotation `X'[i] = X[(i + ROT_STEP) mod 4]` (R128). -/
def rotateLanes (p : Params) (x : Vector Lane 4) : Vector Lane 4 :=
  Vector.ofFn fun i => x[(i.val + rotStepNat p.rotStep) % 4]'(by omega)

/-- Round `r`: the AES step on every lane, then the rotation if `r` is odd (R129). -/
def roundStep (path : Path) (p : Params) (r : Nat) (x : Vector Lane 4) : Vector Lane 4 :=
  let y : Vector Lane 4 := Vector.ofFn fun i => aesRound path x[i] (roundConst p r i)
  if r % 2 = 1 then rotateLanes p y else y

/-- The state after rounds `0 .. n-1` (R129). -/
def rounds (path : Path) (p : Params) : Nat → Vector Lane 4 → Vector Lane 4
  | 0, x => x
  | n + 1, x => roundStep path p n (rounds path p n x)

/-- The four lanes of a block (R121). -/
def lanesOf (t : Block) : Vector Lane 4 := Vector.ofFn fun i => laneOf t i

/-- The fold: the first 256 bits XOR the second 256 bits (R130). -/
def foldHalves (f : Block) : Digest :=
  Vector.ofFn fun j => f[j.val]'(by omega) ^^^ f[32 + j.val]'(by omega)

/-- The function `P` (R131): 8 rounds, feed-forward with the input, fold; on the datapath `path` (R136). -/
def permP (path : Path) (p : Params) (t : Block) : Digest :=
  foldHalves (xorBytes (blockOfLanes (rounds path p 8 (lanesOf t))) t)

end Sys2Proof.Machine
end

