-- ==== Sys2Proof/Machine/Sponge.lean ====
section
/-!
DEFINITION. The shared procedures of the Sponge Engine (spec/41_sponge.md, part 2) on the registers of one context:
`Init`, `Absorb`, `Append`, `Finish`, `Clear`.
-/

namespace Sys2Proof.Machine

/-- `IV[0] ++ IV[1] ++ IV[2] ++ IV[3]` (R22, R152). -/
def ivBlock (p : Params) : Block := blockOfLanes p.iv

/-- `Init(h)` (R152): every register but `PHASE`. -/
def Ctx.init (p : Params) (c : Ctx) : Ctx :=
  { c with hashState := ivBlock p, buf := zeroBytes 64, cnt := 0, tot := 0 }

/-- `Clear(h)` (R163): every register but `PHASE` becomes zero. -/
def Ctx.clear (c : Ctx) : Ctx :=
  { c with hashState := zeroBytes 64, buf := zeroBytes 64, cnt := 0, tot := 0 }

/-- The HashState after `Absorb` (R151): lanes 0 and 1 are the permutation output; lanes 2 and 3 are those of
`T = S xor B` (`ABSORB_WRITEBACK = true`) or of the old `S` (`false`). -/
def absorbState (path : Path) (p : Params) (s b : Block) : Block :=
  let t := xorBytes s b
  let o := permP path p t
  let kept := if p.absorbWriteback then t else s
  Vector.ofFn fun j => if h : j.val < 32 then o[j.val]'h else kept[j]

/-- `Absorb(h, B)` (R151): touches nothing but `S[h]`. -/
def Ctx.absorb (path : Path) (p : Params) (b : Block) (c : Ctx) : Ctx :=
  { c with hashState := absorbState path p c.hashState b }

/-! ### Append -/

/-- How many bytes the top-up takes: none into an empty buffer, else `min(64 - n, LEN)` (R153). -/
def topUpCount (n len : Nat) : Nat := if n = 0 then 0 else min (64 - n) len

/-- The top-up (R153): `bytes` go to `BUF[n..]`; a buffer that reaches exactly 64 bytes is absorbed and its count
reset, its bytes staying as stale bytes (R23, R24). -/
def Ctx.topUp (path : Path) (p : Params) (bytes : List Byte) (c : Ctx) : Ctx :=
  let n := c.cnt.toNat + bytes.length
  let c := { c with buf := writeBuf c.buf c.cnt.toNat bytes }
  if n = 64 then { c.absorb path p c.buf with cnt := 0 } else { c with cnt := BitVec.ofNat 6 n }

/-- The loop of rule R153: `k` complete blocks absorbed directly from the payload. -/
def absorbDirect (path : Path) (p : Params) : Nat → List Byte → Ctx → Ctx
  | 0, _, c => c
  | k + 1, pay, c =>
    absorbDirect path p k (pay.drop 64) (c.absorb path p (blockOfBytes (readPay pay 0 64)))

/-- The leftover of rule R153: copied to `BUF[n..]`, and `CNT[h] <- n + r`. -/
def Ctx.storeLeftover (bytes : List Byte) (c : Ctx) : Ctx :=
  { c with
    buf := writeBuf c.buf c.cnt.toNat bytes
    cnt := BitVec.ofNat 6 (c.cnt.toNat + bytes.length) }

/-- `Append(h)` with payload `pay` (R153, R165): the running total, the top-up, the complete blocks, the leftover. -/
def Ctx.append (path : Path) (p : Params) (pay : List Byte) (c : Ctx) : Ctx :=
  let c := { c with tot := c.tot + BitVec.ofNat 64 pay.length }
  let off := topUpCount c.cnt.toNat pay.length
  let rest := pay.drop off
  let k := rest.length / 64
  ((absorbDirect path p k rest (c.topUp path p (readPay pay 0 off))).storeLeftover
    (readPay rest (64 * k) (rest.length - 64 * k)))

/-! ### Finish -/

/-- The first branch of `Finish` (R154): a buffer of more than 55 bytes is padded with zero bytes, absorbed, and
empty afterwards; another is left as it is. -/
def Ctx.spill (path : Path) (p : Params) (c : Ctx) : Ctx :=
  let n := c.cnt.toNat
  if n > 55 then
    let c := { c with buf := writeBuf c.buf n (zeros (64 - n)) }
    { c.absorb path p c.buf with cnt := 0 }
  else c

/-- The final block (R154, R155, R63(a)): marker at `n = CNT[h]`, zeros to offset 55, and the bit length
`TOT[h] * 8` modulo 2^64 little-endian at offset 56. -/
def Ctx.finalBlock (c : Ctx) : Block :=
  let n := c.cnt.toNat
  let b := writeBuf c.buf n [0x80]
  let b := writeBuf b (n + 1) (zeros (55 - n))
  writeBuf b 56 (leBytes 8 (c.tot <<< 3).toNat)

/-- `Finish(h)` (R154): the digest is the output of `P` on `S[h] xor` the final block. -/
def Ctx.finish (path : Path) (p : Params) (c : Ctx) : Digest :=
  let c := c.spill path p
  permP path p (xorBytes c.hashState c.finalBlock)

end Sys2Proof.Machine
end

