-- ==== Sys2Proof/Machine/Ops.lean ====
section
/-!
DEFINITION. The shared operations of the commands: responding (R97), raising an error, which is the engine's whole
"trap entry" (R209; there is no trap return, R210), writing a slot, and the frame every command runs in: checks first,
effect only if they all pass (R96, R203).
-/

namespace Sys2Proof.Machine

/-- How a step can end; the engine's own use of the host's three outcomes. -/
abbrev Result := Host.Outcome State Fault Refusal

/-- The value of a status byte (R99, R201). -/
def Err.code : Err → Byte
  | .illegal => 0x01
  | .badLen => 0x02
  | .badHandle => 0x03
  | .finalized => 0x04
  | .noContext => 0x05
  | .unsupported => 0x06

/-- A response as bytes: `STATUS`, `RLEN`, payload; an error has `RLEN = 0` (R97). -/
def Response.bytes : Response → List Byte
  | .ok payload => 0x00 :: BitVec.ofNat 8 payload.length :: payload
  | .err e => [e.code, 0x00]

/-- The byte stream of the responses given so far, in command order (R97). -/
def State.outputBytes (s : State) : List Byte := s.output.flatMap Response.bytes

/-- `respond(OK, payload)` (R12, R97). -/
def respond (payload : List Byte) (s : State) : State :=
  { s with output := s.output ++ [.ok payload] }

/-- `raise Err(e)`: taking an exception (R203, R209). The status is the whole of it: nothing is saved, no mode changes
and no state but the response stream is written. -/
def raise (e : Err) (s : State) : State := { s with output := s.output ++ [.err e] }

/-- A slot's registers written (R20, R21). -/
def State.setSlot (s : State) (h : Nat) (c : Ctx) : State := { s with slots := s.slots.set h c }

/-- What a command that passed its checks does: the state it leaves and the payload of its `OK` response; or the error
that stops it. -/
abbrev Effect := Except Err (State × List Byte)

/-- The state after a command (R96, R203, R204): steps 2 and 3 over the operand form, then the command's own checks and
effect; an error answers from the state as it was before the command. -/
def commandState (f : OperandForm) (hnd arg : Byte) (pay : List Byte) (s : State) (effect : Effect) : State :=
  match operandError f hnd arg pay.length with
  | some e => raise e s
  | none =>
    match effect with
    | .error e => raise e s
    | .ok (t, payload) => respond payload t

/-- The frame of every command: it always completes with one response (R66, R97, R206). -/
def runCommand (f : OperandForm) (hnd arg : Byte) (pay : List Byte) (s : State) (effect : Effect) : Result :=
  .next (commandState f hnd arg pay s effect)

end Sys2Proof.Machine
end

