-- ==== Sys2Proof/Machine/Capability.lean ====
section
/-!
DEFINITION. The meanings of the capability queries `HASACCEL`, `HASWIDE`, `PARALLEL`, of the path control `SETPATH`
and of the test hook `DBGRD` (spec/42_capability_and_control.md).
-/

namespace Sys2Proof.Machine

/-- `0x01` if the bit is set, else `0x00` (R98). -/
def bitByte (b : Bool) : Byte := if b then 0x01 else 0x00

/-- `HASACCEL` (R181): whether the accelerated datapath exists, whatever is selected. -/
def execHasaccel (hnd arg : Byte) (pay : List Byte) (s : State) : Result :=
  runCommand formHasaccel hnd arg pay s <| .ok (s, [bitByte (s.cap.getLsbD 0)])

/-- `HASWIDE` (R182): the advisory wide-vector capability. -/
def execHaswide (hnd arg : Byte) (pay : List Byte) (s : State) : Result :=
  runCommand formHaswide hnd arg pay s <| .ok (s, [bitByte (s.cap.getLsbD 1)])

/-- `PARALLEL` (R183): `LE32(PARH)`. -/
def execParallel (hnd arg : Byte) (pay : List Byte) (s : State) : Result :=
  runCommand formParallel hnd arg pay s <| .ok (s, leBytes 4 s.parh.toNat)

/-- The mode that `ARG` names in `SETPATH` (R184): 0 `AUTO`, 1 `PORTABLE`, 2 `ACCEL`; 3 is `KEEP`, no mode. -/
def forceOfArg (arg : Byte) : Option Force :=
  match arg.toNat with
  | 0 => some .auto
  | 1 => some .portable
  | 2 => some .accel
  | _ => none

/-- The payload of `SETPATH`'s response: `CTRL.FORCE` and `PSEL.ACTIVE` after the command (R98, R184). -/
def pathStatus (s : State) : List Byte := [BitVec.ofNat 8 s.force.code, BitVec.ofNat 8 s.active.code]

/-- `SETPATH` (R184): forcing an absent datapath is `ERR_UNSUPPORTED`; a mode sets `CTRL.FORCE` and `PSEL.ACTIVE`
(R35); `KEEP` writes nothing. -/
def execSetpath (hnd arg : Byte) (pay : List Byte) (s : State) : Result :=
  runCommand formSetpath hnd arg pay s <|
    match forceOfArg arg with
    | none => .ok (s, pathStatus s)
    | some m =>
      if m = .accel ∧ s.params.hwAccelPresent = false then .error .unsupported
      else
        let t := { s with force := m, active := selectPath m s.params.hwAccelPresent }
        .ok (t, pathStatus t)

/-- `CtxDump` (R186): `S`, `BUF` with its stale bytes, `CNT`, `LE64(TOT)`, `PHASE`: 138 bytes. -/
def ctxDump (c : Ctx) : List Byte :=
  c.hashState.toList ++ c.buf.toList ++ [BitVec.ofNat 8 c.cnt.toNat] ++ leBytes 8 c.tot.toNat ++ [c.phase.code]

/-- `GlobalDump` (R186): `LE32` of `CTRL`, `CAP`, `PARH`, `PSEL`: 16 bytes. -/
def globalDump (s : State) : List Byte :=
  leBytes 4 s.ctrl.toNat ++ leBytes 4 s.cap.toNat ++ leBytes 4 s.parh.toNat ++ leBytes 4 s.psel.toNat

/-- What `DBGRD` reads (R71, R185): 0xFE the global registers, 0xFF the scratch context, else a slot of any phase. -/
def dbgTarget (s : State) (hnd : Byte) : Effect :=
  if hnd = 0xFE then .ok (s, globalDump s)
  else if hnd = 0xFF then .ok (s, ctxDump s.scr)
  else
    match s.slot? hnd with
    | none => .error .badHandle
    | some c => .ok (s, ctxDump c)

/-- `DBGRD` (R185): with the test hook absent the opcode is illegal, before any other check (R96 step 1, R204). -/
def execDbgrd (hnd arg : Byte) (pay : List Byte) (s : State) : Result :=
  .next (if s.params.testHookEn then commandState formDbgrd hnd arg pay s (dbgTarget s hnd) else raise .illegal s)

end Sys2Proof.Machine
end

