-- ==== Sys2Proof/Machine/Hashing.lean ====
section
/-!
DEFINITION. The meanings of the hashing commands `HASH`, `CREATE`, `UPDATE`, `FINALIZE`, `DESTROY`
(spec/41_sponge.md, part 4) and of `PERMUTE` (spec/40_permutation.md, part 6). Every evaluation of `P` in a command
uses the datapath `PSEL.ACTIVE` names when the command starts (R136).
-/

namespace Sys2Proof.Machine

/-- The digest `HASH` computes in the scratch context: `Init`, `Append`, `Finish` (R160). -/
def hashDigest (s : State) (msg : List Byte) : Digest :=
  ((s.scr.init s.params).append s.active s.params msg).finish s.active s.params

/-- `HASH` (R160): the digest of the payload, computed in the scratch context, which is cleared before the response. -/
def execHash (hnd arg : Byte) (pay : List Byte) (s : State) : Result :=
  runCommand formHash hnd arg pay s <|
    .ok ({ s with scr := s.scr.clear }, (hashDigest s pay).toList)

/-- `CREATE` (R156): the smallest free slot, initialised and made `ACTIVE`; its number is the handle. -/
def execCreate (hnd arg : Byte) (pay : List Byte) (s : State) : Result :=
  runCommand formCreate hnd arg pay s <|
    match s.smallestFree with
    | none => .error .noContext
    | some h =>
      .ok (s.setSlot h { Ctx.zero.init s.params with phase := .active }, [BitVec.ofNat 8 h])

/-- `UPDATE` (R157): `Append` on an `ACTIVE` slot. -/
def execUpdate (hnd arg : Byte) (pay : List Byte) (s : State) : Result :=
  runCommand formUpdate hnd arg pay s <|
    match s.activeSlot hnd with
    | .error e => .error e
    | .ok c => .ok (s.setSlot hnd.toNat (c.append s.active s.params pay), [])

/-- `FINALIZE` (R158): the digest; then the slot is cleared and `FINALIZED`. -/
def execFinalize (hnd arg : Byte) (pay : List Byte) (s : State) : Result :=
  runCommand formFinalize hnd arg pay s <|
    match s.activeSlot hnd with
    | .error e => .error e
    | .ok c =>
      .ok (s.setSlot hnd.toNat { c.clear with phase := .finalized }, (c.finish s.active s.params).toList)

/-- `DESTROY` (R159): the slot is cleared and `FREE`, from `ACTIVE` and from `FINALIZED`. -/
def execDestroy (hnd arg : Byte) (pay : List Byte) (s : State) : Result :=
  runCommand formDestroy hnd arg pay s <|
    match s.takenSlot hnd with
    | .error e => .error e
    | .ok c => .ok (s.setSlot hnd.toNat { c.clear with phase := .free }, [])

/-- `PERMUTE` (R138): `P` of the 64-byte payload; no context is touched. -/
def execPermute (hnd arg : Byte) (pay : List Byte) (s : State) : Result :=
  runCommand formPermute hnd arg pay s <|
    .ok (s, (permP s.active s.params (blockOfBytes (readPay pay 0 64))).toList)

end Sys2Proof.Machine
end

