-- ==== Sys2Proof/Machine/Dispatch.lean ====
section
/-! DEFINITION. The meaning of every command: one arm per constructor of `Instr`. -/

namespace Sys2Proof.Machine

def exec (i : Instr) (s : State) : Host.Outcome State Fault Refusal :=
  match i with
  | .hash hnd arg pay => Sys2Proof.Machine.execHash hnd arg pay s
  | .create hnd arg pay => Sys2Proof.Machine.execCreate hnd arg pay s
  | .update hnd arg pay => Sys2Proof.Machine.execUpdate hnd arg pay s
  | .finalize hnd arg pay => Sys2Proof.Machine.execFinalize hnd arg pay s
  | .destroy hnd arg pay => Sys2Proof.Machine.execDestroy hnd arg pay s
  | .permute hnd arg pay => Sys2Proof.Machine.execPermute hnd arg pay s
  | .hasaccel hnd arg pay => Sys2Proof.Machine.execHasaccel hnd arg pay s
  | .haswide hnd arg pay => Sys2Proof.Machine.execHaswide hnd arg pay s
  | .parallel hnd arg pay => Sys2Proof.Machine.execParallel hnd arg pay s
  | .setpath hnd arg pay => Sys2Proof.Machine.execSetpath hnd arg pay s
  | .dbgrd hnd arg pay => Sys2Proof.Machine.execDbgrd hnd arg pay s

end Sys2Proof.Machine
end

