-- ==== Sys2Proof/Machine/Step.lean ====
section
/-!
DEFINITION. One step of the engine: the next packet of the input is framed, taken off it, decoded and executed, and
answered with one response (R66, R92, R97).
-/

namespace Sys2Proof.Machine

/-- The state with the consumed packet taken off the input: `rest` is what follows it (R92, R205). -/
def State.consume (s : State) (rest : List Byte) : State := { s with input := rest }

/-- One step. A whole packet is consumed and answered, an illegal one with `ERR_ILLEGAL` (R92, R100, R205). While no
whole packet has arrived the engine is idle with all state retained (R92, R215). -/
def step (s : State) : Host.Outcome State Fault Refusal :=
  match decodeBytes s.input with
  | .incomplete => .next s
  | .rejected _ rest => .next (raise .illegal (s.consume rest))
  | .command i rest => exec i (s.consume rest)

/-- `s` with the packet of a table word as the next bytes the hosts send: the next step consumes exactly it. Bytes
already waiting stay behind it. -/
def State.withFetchWord (s : State) (nbits w : Nat) : State :=
  { s with input := tablePacket nbits w ++ s.input }

end Sys2Proof.Machine
end

