-- ==== Sys2Proof/Safety.lean ====
section
/-!
DEFINITION. The terms claims are stated in: the invariant of rule R27 with what rules R8, R35 and R97 add to it; the
message a context has buffered; the digest of a message written on the message itself (the padded blocks of R154 notes
(a) and (b)) instead of on a buffer; running a list of commands; the pseudo-operation `streaming` of R103.
-/

namespace Sys2Proof

open Machine

namespace Machine

/-! ### The invariant -/

/-- R27 (b), (c) for one context: all zero unless `ACTIVE`; `CNT = TOT mod 64` if `ACTIVE`. (a) and (d) hold by the
types of `CNT` and `PHASE`. -/
abbrev Ctx.Inv (c : Ctx) : Prop :=
  (c.phase ≠ .active → { c with phase := .free } = Ctx.zero) ∧
  (c.phase = .active → c.cnt.toNat = c.tot.toNat % 64)

/-- A response that the one-byte `RLEN` can announce (R97). -/
abbrev Response.Fits : Response → Prop
  | .ok payload => payload.length ≤ 255
  | .err _ => True

/-- What holds between any two commands: `1 ≤ N_CTX ≤ 254` (R8), R27 for every slot, the scratch context all zero and
`FREE` (R27(e), R28), the selection as R35 computes it and `ACCEL` forced only where it exists, and every response
announced truly (R97). -/
abbrev State.Inv (s : State) : Prop :=
  1 ≤ s.slots.length ∧ s.slots.length ≤ 254 ∧ (∀ c ∈ s.slots, c.Inv) ∧ s.scr = Ctx.zero ∧
  s.active = selectPath s.force s.params.hwAccelPresent ∧
  (s.force = .accel → s.params.hwAccelPresent = true) ∧ (∀ r ∈ s.output, r.Fits)

/-! ### Messages and digests -/

/-- The valid bytes of a context's buffer: `BUF[0 .. CNT-1]` (R23). -/
def Ctx.validBytes (c : Ctx) : List Byte := c.buf.toList.take c.cnt.toNat

/-- The HashState after the first `k` 64-byte blocks of `m` are absorbed in order (R150, R151). -/
def absorbBytes (path : Path) (p : Params) : Nat → List Byte → Block → Block
  | 0, _, s => s
  | k + 1, m, s => absorbBytes path p k (m.drop 64) (absorbState path p s (blockOfBytes (m.take 64)))

/-- The bytes that end a message of `total` bytes whose last `tail.length < 64` bytes are left over after the complete
blocks: one block if at most 55 bytes are left over; else the tail and zeros with no marker, then a block that begins
with the marker (R154 notes (a), (b)). The last 8 bytes are the bit length (R155). -/
def padTail (tail : List Byte) (total : Nat) : List Byte :=
  (if tail.length ≤ 55 then tail ++ [0x80] ++ zeros (55 - tail.length)
    else tail ++ zeros (64 - tail.length) ++ [0x80] ++ zeros 55) ++ leBytes 8 ((total * 8) % 2 ^ 64)

/-- The digest of the blocks in `q`, a byte string of 64 or 128 or 192 ... bytes, from the HashState `s`: all blocks but
the last are absorbed, and the last goes through `P` once more, not back into the state (R154 note (c)). -/
def squeeze (path : Path) (p : Params) (s : Block) (q : List Byte) : Digest :=
  let k := q.length / 64 - 1
  permP path p (xorBytes (absorbBytes path p k q s) (blockOfBytes (q.drop (64 * k))))

/-- The whole padded message: its complete blocks, then its padded end (R154, R160). -/
def padMessage (m : List Byte) : List Byte :=
  m.take (64 * (m.length / 64)) ++ padTail (m.drop (64 * (m.length / 64))) m.length

/-- The digest of a message, on the padded message alone: no buffer, no count, no chunks (R150, R160). -/
def messageDigest (path : Path) (p : Params) (m : List Byte) : Digest :=
  squeeze path p (ivBlock p) (padMessage m)

/-! ### The constants a lane meets -/

/-- The position, in round `r`, of the lane that starts at position `i`: one rotation after every odd round, each moving
every lane one position down (`ROT_STEP = 1`) or up (`ROT_STEP = 3`), modulo 4 (R128). -/
def lanePosition (p : Params) (i r : Nat) : Fin 4 :=
  ⟨(i + (match p.rotStep with | .one => 3 | .three => 1) * (r / 2)) % 4, Nat.mod_lt _ (by decide)⟩

/-- The constant that lane meets in round `r`: `RC[(r + LANE_OFFSET(position)) mod 8]` (R127). -/
def laneConstant (p : Params) (i r : Nat) : Lane :=
  p.rc[(r + (p.laneOffset[lanePosition p i r]).val) % 8]'(Nat.mod_lt _ (by decide))

/-! ### Sequences of commands -/

/-- Commands executed one after the other (R66). -/
def runCommands : List Instr → State → Result
  | [], s => .next s
  | i :: is, s =>
    match exec i s with
    | .next t => runCommands is t
    | .fault f => .fault f
    | .refused r => .refused r

/-- `streaming(C1..Cn)` on the handle `h` that its `CREATE` answers (R103). -/
def streamingCommands (h : Byte) (chunks : List (List Byte)) : List Instr :=
  [.create 0 0 []] ++ chunks.map (fun c => .update h 0 c) ++ [.finalize h 0 [], .destroy h 0 []]

/-- The payload length of a command's `OK` response (R98). -/
def okLength : Instr → Nat
  | .hash _ _ _ => 32
  | .create _ _ _ => 1
  | .update _ _ _ => 0
  | .finalize _ _ _ => 32
  | .destroy _ _ _ => 0
  | .permute _ _ _ => 32
  | .hasaccel _ _ _ => 1
  | .haswide _ _ _ => 1
  | .parallel _ _ _ => 4
  | .setpath _ _ _ => 2
  | .dbgrd h _ _ => if h = 0xFE then 16 else 138

/-! ### Tables of the spec that claims read -/

/-- The checks of rule R96 in the order they are made (the order of R204), on a packet as it is framed. -/
def checkOrder (s : State) (p : Packet) : Option Err :=
  let opc := p.opc.toNat
  -- step 1
  if p.rsv ≠ 0 ∨ opc = 0 ∨ 0x0B < opc ∨ (opc = 0x0B ∧ s.params.testHookEn = false) then some .illegal
  -- step 2
  else if opc ∉ [0x03, 0x04, 0x05, 0x0B] ∧ p.hnd ≠ 0 then some .illegal
  else if (opc ≠ 0x0A ∧ p.arg ≠ 0) ∨ (opc = 0x0A ∧ 3 < p.arg.toNat) then some .illegal
  -- step 3
  else if (opc = 0x06 ∧ p.pay.length ≠ 64) ∨ (opc ∉ [0x01, 0x03, 0x06] ∧ p.pay.length ≠ 0) then some .badLen
  -- step 4
  else if opc ∈ [0x03, 0x04, 0x05] ∧ s.slots.length ≤ p.hnd.toNat then some .badHandle
  else if opc ∈ [0x03, 0x04, 0x05] ∧ (s.slots[p.hnd.toNat]?.map Ctx.phase) = some .free then some .badHandle
  else if opc = 0x0B ∧ s.slots.length ≤ p.hnd.toNat ∧ p.hnd ≠ 0xFE ∧ p.hnd ≠ 0xFF then some .badHandle
  -- step 5
  else if opc ∈ [0x03, 0x04] ∧ (s.slots[p.hnd.toNat]?.map Ctx.phase) = some .finalized then some .finalized
  else if opc = 0x02 ∧ ∀ c ∈ s.slots, c.phase ≠ .free then some .noContext
  else if opc = 0x0A ∧ p.arg = 2 ∧ s.params.hwAccelPresent = false then some .unsupported
  else none

/-- What the table of R164 says of the commands that name a slot: the status and the phase after. -/
def lifecycle (h : Byte) (pay : List Byte) : List (Instr × Phase × Option Err × Phase) :=
  [(.update h 0 pay, .free, some .badHandle, .free), (.update h 0 pay, .active, none, .active),
   (.update h 0 pay, .finalized, some .finalized, .finalized),
   (.finalize h 0 [], .free, some .badHandle, .free), (.finalize h 0 [], .active, none, .finalized),
   (.finalize h 0 [], .finalized, some .finalized, .finalized),
   (.destroy h 0 [], .free, some .badHandle, .free), (.destroy h 0 [], .active, none, .free),
   (.destroy h 0 [], .finalized, none, .free),
   (.dbgrd h 0 [], .free, none, .free), (.dbgrd h 0 [], .active, none, .active),
   (.dbgrd h 0 [], .finalized, none, .finalized)]

end Machine

end Sys2Proof
end

