-- ==== Sys2Proof/WellFormed.lean ====
section
/-!
DEFINITION. Which command terms are packets at all (`Instr.encodable`: the payload length fits `LEN`), and which of
them have legal operands (`Instr.wellFormed`: the `HND`, `ARG` and `LEN` columns of the table of rule R95).
-/

namespace Sys2Proof

/-- The payload length is a value of the 64-bit field `LEN` (R61, R90). -/
abbrev Instr.encodable (i : Instr) : Prop := i.pay.length < 2 ^ 64

/-- The `HND` column of R95: 0 where the command takes no handle; any byte where it takes one. -/
def Instr.hndLegal : Instr → Bool
  | .hash h _ _ => h == 0
  | .create h _ _ => h == 0
  | .update _ _ _ => true
  | .finalize _ _ _ => true
  | .destroy _ _ _ => true
  | .permute h _ _ => h == 0
  | .hasaccel h _ _ => h == 0
  | .haswide h _ _ => h == 0
  | .parallel h _ _ => h == 0
  | .setpath h _ _ => h == 0
  | .dbgrd _ _ _ => true

/-- The `ARG` column of R95: 0, but for the mode 0..3 of `SETPATH`. -/
def Instr.argLegal : Instr → Bool
  | .hash _ a _ => a == 0
  | .create _ a _ => a == 0
  | .update _ a _ => a == 0
  | .finalize _ a _ => a == 0
  | .destroy _ a _ => a == 0
  | .permute _ a _ => a == 0
  | .hasaccel _ a _ => a == 0
  | .haswide _ a _ => a == 0
  | .parallel _ a _ => a == 0
  | .setpath _ a _ => decide (a.toNat ≤ 3)
  | .dbgrd _ a _ => a == 0

/-- The `LEN` column of R95 (R93): any for `HASH` and `UPDATE`, 64 for `PERMUTE`, 0 for the others. -/
def Instr.lenLegal : Instr → Bool
  | .hash _ _ _ => true
  | .create _ _ p => p.length == 0
  | .update _ _ _ => true
  | .finalize _ _ p => p.length == 0
  | .destroy _ _ p => p.length == 0
  | .permute _ _ p => p.length == 64
  | .hasaccel _ _ p => p.length == 0
  | .haswide _ _ p => p.length == 0
  | .parallel _ _ p => p.length == 0
  | .setpath _ _ p => p.length == 0
  | .dbgrd _ _ p => p.length == 0

/-- A packet with legal operands: it passes steps 2 and 3 of rule R96. -/
abbrev Instr.wellFormed (i : Instr) : Prop :=
  i.encodable ∧ i.hndLegal = true ∧ i.argLegal = true ∧ i.lenLegal = true

end Sys2Proof
end

