-- ==== Sys2Proof/Certificates/Slice0/Obligations.lean ====
section
/-!
DEFINITION. The statements for the provers. Each docstring names the rule of spec/ or the log entry it rests on. Where a
statement speaks of every state it also holds of states that no run reaches; `State.Inv` (R27) is a premise where it is
needed. Many rules of spec/ are decisions of the spec itself (marked so there, 92_eei_decisions.md); they are cited as the
numbered rules they are. `State.input` and `State.output` are the model's own fields (log entry 2). A payload of 2^64 bytes or
more is no packet; that a statement over all payloads also speaks of such lists is the model's choice (log entry 7).
-/

open Sys2Proof Sys2Proof.Machine

/-! ## Encoding -/

/-- One packet of every command, written out byte by byte (30_encoding.md parts 1, 2 and 6; 95_test_vectors.md V60 to
V86), decodes to that command. -/
def Obligations.SpecPacketsDecode : Prop :=
  decodeBytes [0x01, 0x00, 0x00, 0x00, 0x03, 0, 0, 0, 0, 0, 0, 0, 0x61, 0x62, 0x63]
      = .command (.hash 0 0 [0x61, 0x62, 0x63]) [] ∧
  decodeBytes [0x02, 0x00, 0x00, 0x00, 0, 0, 0, 0, 0, 0, 0, 0] = .command (.create 0 0 []) [] ∧
  decodeBytes [0x03, 0x01, 0x00, 0x00, 0x03, 0, 0, 0, 0, 0, 0, 0, 0x61, 0x62, 0x63]
      = .command (.update 1 0 [0x61, 0x62, 0x63]) [] ∧
  decodeBytes [0x04, 0x07, 0x00, 0x00, 0, 0, 0, 0, 0, 0, 0, 0] = .command (.finalize 7 0 []) [] ∧
  decodeBytes [0x05, 0x00, 0x00, 0x00, 0, 0, 0, 0, 0, 0, 0, 0] = .command (.destroy 0 0 []) [] ∧
  decodeBytes ([0x06, 0x00, 0x00, 0x00, 0x40, 0, 0, 0, 0, 0, 0, 0] ++ zeros 64)
      = .command (.permute 0 0 (zeros 64)) [] ∧
  decodeBytes [0x07, 0x00, 0x00, 0x00, 0, 0, 0, 0, 0, 0, 0, 0] = .command (.hasaccel 0 0 []) [] ∧
  decodeBytes [0x08, 0x00, 0x00, 0x00, 0, 0, 0, 0, 0, 0, 0, 0] = .command (.haswide 0 0 []) [] ∧
  decodeBytes [0x09, 0x00, 0x00, 0x00, 0, 0, 0, 0, 0, 0, 0, 0] = .command (.parallel 0 0 []) [] ∧
  decodeBytes [0x0A, 0x00, 0x03, 0x00, 0, 0, 0, 0, 0, 0, 0, 0] = .command (.setpath 0 3 []) [] ∧
  decodeBytes [0x0B, 0xFE, 0x00, 0x00, 0, 0, 0, 0, 0, 0, 0, 0] = .command (.dbgrd 0xFE 0 []) []

/-- Decoding the packet of a command gives the command back and leaves what follows it, for every command and every
value of its operands (R90 to R92, R95): legal operands or not, any payload whose length `LEN` can say. -/
def Obligations.DecodeOfEncode : Prop :=
  ∀ (i : Instr) (rest : List Byte), i.encodable → decodeBytes (encode i ++ rest) = .command i rest

/-- A byte string that decodes to a command is that command's packet and what follows it: no two packets mean the same
command, and no byte of a packet is ignored (R90, R91, R95). -/
def Obligations.EncodeOfDecode : Prop :=
  ∀ (i : Instr) (bs rest : List Byte), decodeBytes bs = .command i rest → bs = encode i ++ rest ∧ i.encodable

/-- The opcode map in its mask form over the word `CMD` (R95): a packet is the command whose `OPC` is `CMD` masked with
`0xFF0000FF`, with the packet's `HND`, `ARG` and payload; and it is no command if there is none. -/
def Obligations.DecoderFollowsMaskAndMatch : Prop :=
  ∀ (p : Packet) (i : Instr),
    decode p = .ok i ↔
      BitVec.ofNat 32 (leNat [p.opc, p.hnd, p.arg, p.rsv]) &&& 0xFF0000FF#32 = i.opcode.setWidth 32 ∧
      i.hnd = p.hnd ∧ i.arg = p.arg ∧ i.pay = p.pay

/-! ## Steps and errors -/

/-- When the waiting bytes begin with the packet of a command, the step takes that packet off and is `exec` of the
command. -/
def Obligations.StepRunsDecodedCommand : Prop :=
  ∀ (s : State) (i : Instr) (rest : List Byte),
    decodeBytes s.input = .command i rest → step s = exec i { s with input := rest }

/-- Framing (R92): whatever the four bytes of `CMD` are, a header and the `LEN` bytes it announces are consumed whole, no
byte more, and answered with one response, with the header alone telling the length; the response of an invalid
command is its error. While fewer than `12 + LEN` bytes are there (clauses 2 and 3) the step is idle and changes nothing:
an idle step is the model's reading, log entry 3 (DEDUCED), of "nothing is executed and no response is produced for it"
(R92) and "between commands it is idle with all state retained" (R215). -/
def Obligations.FramingIsIndependentOfValidity : Prop :=
  (∀ (s : State) (opc hnd arg rsv : Byte) (pay rest : List Byte), pay.length < 2 ^ 64 →
    s.input = [opc, hnd, arg, rsv] ++ leBytes 8 pay.length ++ pay ++ rest →
    ∃ t r, step s = .next t ∧ t.input = rest ∧ t.output = s.output ++ [r] ∧
      ∀ e, checkOrder s ⟨opc, hnd, arg, rsv, pay⟩ = some e → r = .err e) ∧
  (∀ s : State, s.input.length < 12 → step s = .next s) ∧
  (∀ (s : State) (opc hnd arg rsv : Byte) (len : Nat) (part : List Byte), len < 2 ^ 64 → part.length < len →
    s.input = [opc, hnd, arg, rsv] ++ leBytes 8 len ++ part → step s = .next s)

/-- Every framed packet is answered with the error that comes first in the order of R96, which is the priority of R204,
or executes and is answered `OK` if no check fails; an error writes nothing but the response. -/
def Obligations.StatusFollowsCheckOrder : Prop :=
  ∀ (s : State) (p : Packet) (rest : List Byte), frame s.input = some (p, rest) →
    match checkOrder s p with
    | some e => step s = .next { s with input := rest, output := s.output ++ [.err e] }
    | none => ∃ t out, step s = .next t ∧ t.output = s.output ++ [.ok out]

/-- Exactly one response per framed packet (R97), at the end of the response stream: `STATUS`, then `RLEN`, which is the
true number of payload bytes, then the payload; with a status other than 0 there is no payload. `STATUS` is the value R99
gives the outcome, and no other value. -/
def Obligations.OneResponsePerPacket : Prop :=
  ∀ (s : State) (p : Packet) (rest : List Byte), frame s.input = some (p, rest) →
    ∃ t r status payload, step s = .next t ∧ t.output = s.output ++ [r] ∧ t.outputBytes = s.outputBytes ++ r.bytes ∧
      r.bytes = status :: BitVec.ofNat 8 payload.length :: payload ∧ payload.length ≤ 255 ∧
      (status ≠ 0 → payload = []) ∧
      match r with
      | .ok out => status = 0x00 ∧ payload = out
      | .err .illegal => status = 0x01
      | .err .badLen => status = 0x02
      | .err .badHandle => status = 0x03
      | .err .finalized => status = 0x04
      | .err .noContext => status = 0x05
      | .err .unsupported => status = 0x06

/-- From every state a step has a next state. This is the model's reading: that no command faults or is refused is log
entry 8 (DEDUCED, from R200, R206 "the engine never halts" and R209), and that the step is idle while no whole packet has
arrived is log entry 3 (DEDUCED, from R92 and R215). -/
def Obligations.EngineNeverStops : Prop :=
  ∀ s : State, ∃ t, step s = .next t

/-- A command that answers an error leaves every register as it was (R203). -/
def Obligations.ErrorChangesNoState : Prop :=
  ∀ (i : Instr) (s t : State) (e : Err), exec i s = .next t → t.output = s.output ++ [.err e] →
    t = { s with output := s.output ++ [.err e] }

/-- No error is sticky (R210): a command after an error does what it does without the error. -/
def Obligations.ErrorsAreNotSticky : Prop :=
  ∀ (i j : Instr) (s t u : State) (e : Err), exec i s = .next t → t.output = s.output ++ [.err e] →
    exec j s = .next u → ∃ r, u.output = s.output ++ [r] ∧
      exec j t = .next { u with output := s.output ++ [.err e, r] }

/-! ## Invariants, reset, configuration -/

/-- The invariant (R27, with R8, R28, R35, R97) is kept by every step from every state that has it. -/
def Obligations.StepKeepsInvariant : Prop :=
  ∀ s t : State, s.Inv → step s = .next t → t.Inv

/-- The state after reset has the invariant, whatever the open parameters are. -/
def Obligations.ResetMeetsInvariant : Prop :=
  State.reset.Inv

/-- Reset (R38): every context all zero and `FREE`, `AUTO`, the datapath that `CAP.HW_ACCEL` selects, and the constant
tables and capability values at the parameters. -/
def Obligations.ResetState : Prop :=
  (∀ c, c ∈ State.reset.slots ∨ c = State.reset.scr →
    c.hashState = zeroBytes 64 ∧ c.buf = zeroBytes 64 ∧ c.cnt = 0 ∧ c.tot = 0 ∧ c.phase = .free) ∧
  State.reset.slots.length = Config.nCtx ∧
  State.reset.force = .auto ∧
  State.reset.psel = BitVec.setWidth 32 (State.reset.cap.extractLsb' 0 1) ∧
  State.reset.cap.getLsbD 0 = Config.hwAccelPresent ∧ State.reset.cap.getLsbD 1 = Config.wideVectorPresent ∧
  State.reset.parh = Config.parHint ∧ State.reset.params.iv = Config.iv ∧ State.reset.params.rc = Config.rc

/-- The parameters, the constant tables among them, and the number of slots never change (R20, R36). -/
def Obligations.ConfigurationNeverChanges : Prop :=
  ∀ s t : State, step s = .next t → t.params = s.params ∧ t.slots.length = s.slots.length

/-- The path selection is made at reset from `CAP.HW_ACCEL`, and only `SETPATH` changes it after that (R232). -/
def Obligations.SelectionChangesOnlyBySetpath : Prop :=
  State.reset.active = selectPath .auto State.reset.params.hwAccelPresent ∧
  ∀ s t : State, step s = .next t → (t.active ≠ s.active ∨ t.force ≠ s.force) →
    ∃ hnd arg pay rest, decodeBytes s.input = .command (.setpath hnd arg pay) rest

/-! ## The Permutation Core -/

/-- The two forms of the S-box in R124 agree, and `inv` is the multiplicative inverse. -/
def Obligations.SboxTableIsTheFormula : Prop :=
  (∀ v : Byte, sboxTable v = sboxFormula v) ∧ (∀ v : Byte, v ≠ 0 → gfMul v (gfInv v) = 1) ∧ gfInv 0 = 0 ∧
  sboxTable 0x00 = 0x63 ∧ sboxTable 0x01 = 0x7c ∧ sboxTable 0x53 = 0xed ∧ sboxTable 0xff = 0x16

/-- The AES round step on both datapaths (R126): the key is added last; the two known answers; a column of equal bytes is
unchanged by `MixColumns`; and a lane of equal bytes under the zero key. -/
def Obligations.AesRoundKnownAnswers : Prop :=
  ∀ path : Path,
    (∀ (a k : Lane) (j : Nat) (h : j < 16),
      (aesRound path a k)[j] = (mixColumns (subBytes path (shiftRows a)))[j] ^^^ k[j]) ∧
    aesRound path
      #v[0x00, 0x10, 0x20, 0x30, 0x40, 0x50, 0x60, 0x70, 0x80, 0x90, 0xa0, 0xb0, 0xc0, 0xd0, 0xe0, 0xf0]
      #v[0xd6, 0xaa, 0x74, 0xfd, 0xd2, 0xaf, 0x72, 0xfa, 0xda, 0xa6, 0x78, 0xf1, 0xd6, 0xab, 0x76, 0xfe]
      = #v[0x89, 0xd8, 0x10, 0xe8, 0x85, 0x5a, 0xce, 0x68, 0x2d, 0x18, 0x43, 0xd8, 0xcb, 0x12, 0x8f, 0xe4] ∧
    aesRound path (zeroBytes 16) (zeroBytes 16) = Vector.replicate 16 0x63 ∧
    (∀ (b : Lane) (c : Nat) (hc : c < 4) (v : Byte), (∀ (r : Nat) (hr : r < 4), b[4 * c + r] = v) →
      ∀ (r : Nat) (hr : r < 4), (mixColumns b)[4 * c + r] = v) ∧
    ∀ v : Byte, aesRound path (Vector.replicate 16 v) (zeroBytes 16) = Vector.replicate 16 (sboxTable v)

/-- The two datapaths compute the same function, bit for bit, for every input and every choice of parameters. That they
compute the S-box in the two different forms of R124 (`ACCEL` the table, `PORTABLE` the formula) is the model's choice,
log entry 4; the spec leaves the form open (40_permutation.md part 5, on the two datapaths). -/
def Obligations.DatapathsAgree : Prop :=
  ∀ (p : Params) (t : Block), permP .portable p t = permP .accel p t

/-- For either `ROT_STEP` the lane that starts at position `i` stands, in round `r`, at position
`i - ROT_STEP * floor(r/2)` (modulo 4), meets the constant of that position, and is at position `i` again after round 7:
it is eight AES steps of the input lane `i` and of nothing else (R127, R128, R129, R132(a), (b)). -/
def Obligations.LaneIsEightKeyedRounds : Prop :=
  ∀ (path : Path) (p : Params) (x : Vector Lane 4) (i : Nat) (hi : i < 4),
    (rounds path p 8 x)[i] = (List.range 8).foldl (fun a r => aesRound path a (laneConstant p i r)) x[i]

/-- What `PERMUTE` computes, byte by byte in the payload (R121, R127 to R131, R63(b), (c)): each lane of 16 payload bytes
goes through its eight AES steps; the feed-forward XORs the payload into it; and response byte `j` is byte `j` of the
first half XOR byte `j` of the second. -/
def Obligations.PermuteFoldsFeedForward : Prop :=
  ∀ (s : State) (pay : List Byte), pay.length = 64 →
    ∃ (x : Vector Lane 4) (d : Digest),
      exec (.permute 0 0 pay) s = .next { s with output := s.output ++ [.ok d.toList] } ∧
      (∀ (i : Nat) (hi : i < 4),
        x[i] = (List.range 8).foldl (fun a r => aesRound s.active a (laneConstant s.params i r))
          (Vector.ofFn fun j : Fin 16 => pay.getD (16 * i + j.val) 0)) ∧
      ∀ (j : Nat) (hj : j < 32),
        d[j] = ((x[j / 16])[j % 16] ^^^ pay.getD j 0) ^^^ ((x[j / 16 + 2])[j % 16] ^^^ pay.getD (32 + j) 0)

/-- Output lane 0 of `P` depends only on input lanes 0 and 2, output lane 1 only on input lanes 1 and 3, for either
rotation direction (R132(c)). -/
def Obligations.OutputLaneDependsOnTwoInputLanes : Prop :=
  ∀ (path : Path) (p : Params) (t u : Block) (i : Nat) (hi : i < 2),
    laneOf t ⟨i, by omega⟩ = laneOf u ⟨i, by omega⟩ → laneOf t ⟨i + 2, by omega⟩ = laneOf u ⟨i + 2, by omega⟩ →
    ∀ (j : Nat) (hj : j < 16), (permP path p t)[16 * i + j] = (permP path p u)[16 * i + j]

/-- An all-equal constant table makes `P` zero on every block whose halves are equal (R132(d)). -/
def Obligations.EqualConstantsCancel : Prop :=
  ∀ (path : Path) (p : Params) (t : Block) (k : Lane), p.rc = Vector.replicate 8 k →
    (∀ (j : Nat) (hj : j < 32), t[j] = t[32 + j]) → permP path p t = zeroBytes 32

/-- `PERMUTE` completes on every 64-byte payload, answers `P` of it and writes nothing else (R138). -/
def Obligations.PermuteRespondsP : Prop :=
  ∀ (s : State) (pay : List Byte), pay.length = 64 →
    exec (.permute 0 0 pay) s =
      .next { s with output := s.output ++ [.ok (permP s.active s.params (blockOfBytes pay)).toList] }

/-! ## The hashing commands -/

/-- `HASH` completes on every message. Its digest is the one of the padded message, computed with no buffer: the
canonical padding of R154 for every length (R160). It writes nothing but the scratch context, which is zero
afterwards. For lists of 2^64 bytes or more, which are no packet, the statement is about the model only (log entry 7). -/
def Obligations.HashIsPaddedMessageDigest : Prop :=
  ∀ (s : State) (m : List Byte),
    exec (.hash 0 0 m) s =
      .next { s with
        scr := { Ctx.zero with phase := s.scr.phase }
        output := s.output ++ [.ok (messageDigest s.active s.params m).toList] }

/-- `CREATE` completes when a slot is `FREE`: the smallest such slot gets the initial state, a zero buffer, zero counts
and `ACTIVE`, nothing else changes, and the slot's number is the answer (R156, R152, R98); byte `j` of `IV[i]` is byte `j` of
lane `i` of that state (R36). In states that no run reaches,
with a slot number above 255, the answer is its low byte: the model's choice, log entry 11. -/
def Obligations.CreateTakesSmallestFree : Prop :=
  ∀ (s : State) (h : Nat) (c : Ctx), s.slots[h]? = some c → c.phase = .free →
    (∀ (j : Nat) (d : Ctx), j < h → s.slots[j]? = some d → d.phase ≠ .free) →
    exec (.create 0 0 []) s =
      .next { s with
        slots := s.slots.set h ⟨blockOfLanes s.params.iv, zeroBytes 64, 0, 0, .active⟩
        output := s.output ++ [.ok [BitVec.ofNat 8 h]] } ∧
    ∀ (i j : Nat) (hi : i < 4) (hj : j < 16), (blockOfLanes s.params.iv)[16 * i + j] = (s.params.iv[i])[j]

/-- `CREATE` with no `FREE` slot answers `ERR_NO_CONTEXT`: a `FINALIZED` slot is not free (R156, R243). -/
def Obligations.CreateWithoutFreeSlot : Prop :=
  ∀ s : State, (∀ c ∈ s.slots, c.phase ≠ .free) →
    exec (.create 0 0 []) s = .next { s with output := s.output ++ [.err .noContext] }

/-- `UPDATE` completes on an `ACTIVE` slot with every payload (R157, R153): the bytes held followed by the payload are
absorbed as far as they make complete blocks, the rest is held, the count is the number of bytes held, and the total
grows by `LEN` modulo 2^64. Nothing else changes. -/
def Obligations.UpdateAppendsMessageBytes : Prop :=
  ∀ (s : State) (h : Byte) (c : Ctx) (pay : List Byte), s.slots[h.toNat]? = some c → c.phase = .active →
    ∃ c' : Ctx,
      exec (.update h 0 pay) s =
        .next { s with slots := s.slots.set h.toNat c', output := s.output ++ [.ok []] } ∧
      c'.hashState =
        absorbBytes s.active s.params ((c.cnt.toNat + pay.length) / 64) (c.validBytes ++ pay) c.hashState ∧
      c'.validBytes = (c.validBytes ++ pay).drop (64 * ((c.cnt.toNat + pay.length) / 64)) ∧
      c'.cnt.toNat = (c.cnt.toNat + pay.length) % 64 ∧
      c'.tot.toNat = (c.tot.toNat + pay.length) % 2 ^ 64 ∧
      c'.phase = .active

/-- The buffer after every `UPDATE` of an `ACTIVE` slot, stale bytes included (R23, R153). One that fills no block writes
the payload behind the bytes held and leaves the rest of the buffer and the HashState as they were. One that fills a
block leaves the last `(CNT + LEN) mod 64` payload bytes at the start of the buffer; behind them stand, from the old
`CNT` on, the payload bytes that topped the buffer up if it held any, and else what stood there before: absorption
resets the count and clears no byte. So a payload of blocks alone into an empty buffer does not write the buffer. -/
def Obligations.UpdateKeepsStaleBytes : Prop :=
  ∀ (s : State) (h : Byte) (c : Ctx) (pay : List Byte), s.slots[h.toNat]? = some c → c.phase = .active →
    ∃ c' : Ctx,
      exec (.update h 0 pay) s =
        .next { s with slots := s.slots.set h.toNat c', output := s.output ++ [.ok []] } ∧
      (c.cnt.toNat + pay.length < 64 → c'.hashState = c.hashState ∧
        ∀ (j : Nat) (hj : j < 64), c'.buf[j] =
          if c.cnt.toNat ≤ j ∧ j < c.cnt.toNat + pay.length then pay.getD (j - c.cnt.toNat) 0 else c.buf[j]) ∧
      (64 ≤ c.cnt.toNat + pay.length →
        ∀ (j : Nat) (hj : j < 64), c'.buf[j] =
          if j < (c.cnt.toNat + pay.length) % 64 then
            pay.getD (pay.length - (c.cnt.toNat + pay.length) % 64 + j) 0
          else if 0 < c.cnt.toNat ∧ c.cnt.toNat ≤ j then pay.getD (j - c.cnt.toNat) 0
          else c.buf[j]) ∧
      (c.cnt = 0 → pay.length % 64 = 0 → c'.buf = c.buf)

/-- One 64-byte block into an empty `ACTIVE` slot (R151): lanes 0 and 1 of the state are the permutation output of
`S xor B`; lanes 2 and 3 are those of `S xor B` if `ABSORB_WRITEBACK` is true, and those of `S` if it is not. -/
def Obligations.UpdateAbsorbsOneBlock : Prop :=
  ∀ (s : State) (h : Byte) (c : Ctx) (pay : List Byte), s.slots[h.toNat]? = some c → c.phase = .active →
    c.cnt = 0 → pay.length = 64 →
    ∃ t c', exec (.update h 0 pay) s = .next t ∧ t.slots[h.toNat]? = some c' ∧
      (∀ (j : Nat) (hj : j < 32),
        c'.hashState[j] = (permP s.active s.params (xorBytes c.hashState (blockOfBytes pay)))[j]) ∧
      (∀ (j : Nat) (hj : j < 64), 32 ≤ j → c'.hashState[j] =
        if s.params.absorbWriteback then c.hashState[j] ^^^ pay.getD j 0 else c.hashState[j])

/-- Two `UPDATE`s of an `ACTIVE` slot leave what one with the concatenated payload leaves, but for stale bytes (R153
note (e), R157). -/
def Obligations.UpdatesCompose : Prop :=
  ∀ (s : State) (h : Byte) (c : Ctx) (a b : List Byte), s.slots[h.toNat]? = some c → c.phase = .active →
    ∃ t u v d e, exec (.update h 0 a) s = .next t ∧ exec (.update h 0 b) t = .next u ∧
      exec (.update h 0 (a ++ b)) s = .next v ∧ u.slots[h.toNat]? = some d ∧ v.slots[h.toNat]? = some e ∧
      d.hashState = e.hashState ∧ d.cnt = e.cnt ∧ d.tot = e.tot ∧ d.validBytes = e.validBytes ∧
      d.phase = e.phase

/-- `FINALIZE` completes on an `ACTIVE` slot: the digest is that of the bytes held, padded for the total, from the state
of the slot; the slot is zero and `FINALIZED`; nothing else changes (R158, R154, R163). -/
def Obligations.FinalizeSqueezesAndClears : Prop :=
  ∀ (s : State) (h : Byte) (c : Ctx), s.slots[h.toNat]? = some c → c.phase = .active →
    exec (.finalize h 0 []) s =
      .next { s with
        slots := s.slots.set h.toNat { Ctx.zero with phase := .finalized }
        output := s.output ++
          [.ok (squeeze s.active s.params c.hashState (padTail c.validBytes c.tot.toNat)).toList] }

/-- `DESTROY` completes on an `ACTIVE` and on a `FINALIZED` slot: it is zero and `FREE`; nothing else changes (R159,
R163). -/
def Obligations.DestroyFreesSlot : Prop :=
  ∀ (s : State) (h : Byte) (c : Ctx), s.slots[h.toNat]? = some c → c.phase ≠ .free →
    exec (.destroy h 0 []) s =
      .next { s with slots := s.slots.set h.toNat Ctx.zero, output := s.output ++ [.ok []] }

/-- The lifecycle table (R164), row by row, with the test hook present and `h` a slot; the column of `CREATE` for the
smallest `FREE` slot; and the other commands neither change the phase of a slot nor depend on one: with any other
slots they do the same. -/
def Obligations.LifecycleTable : Prop :=
  (∀ (s : State) (h : Byte) (pay : List Byte) (c : Ctx), s.params.testHookEn = true → h ≠ 0xFE → h ≠ 0xFF →
    s.slots[h.toNat]? = some c → ∀ row ∈ lifecycle h pay, c.phase = row.2.1 →
      ∃ t c', exec row.1 s = .next t ∧ t.slots[h.toNat]? = some c' ∧ c'.phase = row.2.2.2 ∧
        match row.2.2.1 with
        | some e => t.output = s.output ++ [.err e]
        | none => ∃ out, t.output = s.output ++ [.ok out]) ∧
  (∀ (s : State) (h : Nat), s.smallestFree = some h →
    ∃ t c' out, exec (.create 0 0 []) s = .next t ∧ t.slots[h]? = some c' ∧ c'.phase = .active ∧
      t.output = s.output ++ [.ok out] ∧
      ∀ (j : Nat) (d : Ctx), j ≠ h → s.slots[j]? = some d → t.slots[j]? = some d) ∧
  (∀ (s t : State) (i : Instr), i.opcode.toNat ∉ [2, 3, 4, 5, 11] → exec i s = .next t →
    t.slots = s.slots ∧ ∀ slots : List Ctx, exec i { s with slots := slots } = .next { t with slots := slots })

/-- Chunk invariance (R161): for every sequence of chunks, `streaming` on the slot that `CREATE` takes and `HASH` of the
concatenation give the same 32 bytes; and after the `DESTROY` the machine is as before but for the responses. R161 says
so for totals below 2^64 bytes. That the statement also holds for totals of 2^64 bytes and more rests on the model's
choice to define `exec` on terms that no packet encodes (log entry 7) and is no claim of the rule. -/
def Obligations.ChunkInvariance : Prop :=
  ∀ (s : State) (h : Nat) (chunks : List (List Byte)), s.Inv → s.smallestFree = some h →
    ∃ d : Digest,
      exec (.hash 0 0 chunks.flatten) s = .next { s with output := s.output ++ [.ok d.toList] } ∧
      runCommands (streamingCommands (BitVec.ofNat 8 h) chunks) s =
        .next { s with
          output := s.output ++ [.ok [BitVec.ofNat 8 h]] ++ chunks.map (fun _ => .ok []) ++
            [.ok d.toList, .ok []] }

/-- The length field (R155): the last 8 bytes of the final block are the bit length modulo 2^64, little-endian, so two
contexts that hold the same bytes and whose totals differ by a multiple of 2^61 bytes get the same digest. -/
def Obligations.LengthFieldWraps : Prop :=
  (∀ (path : Path) (p : Params) (c : Ctx),
    leNat (((c.spill path p).finalBlock).toList.drop 56) = (c.tot.toNat * 8) % 2 ^ 64) ∧
  (∀ (path : Path) (p : Params) (c d : Ctx), c.hashState = d.hashState → c.validBytes = d.validBytes →
    c.tot.toNat % 2 ^ 61 = d.tot.toNat % 2 ^ 61 → c.finish path p = d.finish path p)

/-- The padded message has `floor(n/64) + 1` blocks, or `+ 2` when `n mod 64 ≥ 56` (R162); with
`HashIsPaddedMessageDigest` that is the number of evaluations of `P`, one for each block. -/
def Obligations.PaddedBlockCount : Prop :=
  ∀ m : List Byte,
    (padMessage m).length = 64 * (m.length / 64 + if m.length % 64 ≤ 55 then 1 else 2)

/-- Lane separation of the whole hash (R166), for every value of every parameter: if the padded messages have the same
length and agree in lanes `i` and `i+2` of every block, and the initial states agree in lanes `i` and `i+2`, then the
digests agree in lane `i`. The length field lies in lane 3, so the first half does not depend on it. -/
def Obligations.HashLaneSeparation : Prop :=
  ∀ (s : State) (iv : Vector Lane 4) (m n : List Byte) (i : Nat) (hi : i < 2),
    (padMessage m).length = (padMessage n).length →
    (∀ j : Nat, (j / 16) % 2 = i → (padMessage m)[j]? = (padMessage n)[j]?) →
    s.params.iv[i] = iv[i] → s.params.iv[i + 2] = iv[i + 2] →
    ∃ t u d e, exec (.hash 0 0 m) s = .next t ∧
      exec (.hash 0 0 n) { s with params := { s.params with iv := iv } } = .next u ∧
      t.output = s.output ++ [.ok d] ∧ u.output = s.output ++ [.ok e] ∧
      (d.drop (16 * i)).take 16 = (e.drop (16 * i)).take 16

/-! ## Independence and frames -/

/-- `UPDATE`, `FINALIZE` and `DESTROY` write nothing but the slot they name and the response: every other slot, the
scratch context, the global registers and the waiting bytes are as before (R69). -/
def Obligations.SlotCommandsLeaveTheRest : Prop :=
  ∀ (s t : State) (h arg : Byte) (pay : List Byte) (i : Instr),
    i ∈ [Instr.update h arg pay, Instr.finalize h arg pay, Instr.destroy h arg pay] → exec i s = .next t →
    (∀ j : Nat, j ≠ h.toNat → t.slots[j]? = s.slots[j]?) ∧
    t = { s with slots := t.slots, output := t.output }

/-- Commands on different handles commute: the order of two commands that name a handle (`UPDATE`, `FINALIZE`, `DESTROY`,
`DBGRD`; R71) on different handles, the global dump and the scratch context of `DBGRD` among them, changes neither of the
responses nor the final state. For `UPDATE`, `FINALIZE` and `DBGRD` this is R69. For `DESTROY` it goes beyond R69, which
excepts `CREATE` and `DESTROY` because of the slots' allocation: that exception concerns the `CREATE` whose choice of slot a
`DESTROY` changes, and no `CREATE` stands here. It follows from R159, by which `DESTROY h` reads `PHASE[h]` and writes context
`h` only, with R157, R158 and R185 for the other three. -/
def Obligations.SlotCommandsCommute : Prop :=
  ∀ (s : State) (h g a b : Byte) (pay qay : List Byte) (i j : Instr), h ≠ g →
    i ∈ [Instr.update h a pay, Instr.finalize h a pay, Instr.destroy h a pay, Instr.dbgrd h a pay] →
    j ∈ [Instr.update g b qay, Instr.finalize g b qay, Instr.destroy g b qay, Instr.dbgrd g b qay] →
    ∃ (u : State) (ri rj : Response), runCommands [i, j] s = .next { u with output := s.output ++ [ri, rj] } ∧
      runCommands [j, i] s = .next { u with output := s.output ++ [rj, ri] }

/-- Reads have no side effects (R72): `DBGRD`, `HASACCEL`, `HASWIDE`, `PARALLEL` with any operands, and `SETPATH` with
`KEEP`, change no state. -/
def Obligations.QueriesChangeNoState : Prop :=
  ∀ (s : State) (h a : Byte) (pay : List Byte) (i : Instr),
    i ∈ [Instr.dbgrd h a pay, Instr.hasaccel h a pay, Instr.haswide h a pay, Instr.parallel h a pay,
      Instr.setpath h 3 pay] →
    ∃ r, exec i s = .next { s with output := s.output ++ [r] }

/-- `HASH` and `PERMUTE` with any operands touch no slot, and `PERMUTE` no context at all; `HASH` from a cleared scratch
context leaves it cleared (R138, R160, R28). -/
def Obligations.HashAndPermuteTouchNoSlot : Prop :=
  ∀ (s : State) (h a : Byte) (pay : List Byte), s.scr = Ctx.zero →
    ∃ r r', exec (.hash h a pay) s = .next { s with output := s.output ++ [r] } ∧
      exec (.permute h a pay) s = .next { s with output := s.output ++ [r'] }

/-- The commands of 42_capability_and_control.md write no context, and but for `DBGRD` they read none: with other slots
and another scratch context they answer and do the same (R187). -/
def Obligations.ControlCommandsIgnoreContexts : Prop :=
  ∀ (s t : State) (i : Instr), 7 ≤ i.opcode.toNat → exec i s = .next t →
    t.slots = s.slots ∧ t.scr = s.scr ∧
    (i.opcode ≠ 0x0B → ∀ (slots : List Ctx) (scr : Ctx),
      exec i { s with slots := slots, scr := scr } = .next { t with slots := slots, scr := scr })

/-- The selection is not observable in a result (R136, R37): with another forced mode and another active datapath every
command but `SETPATH` and `DBGRD` answers and does the same. -/
def Obligations.ResultsIndependentOfSelection : Prop :=
  ∀ (s t : State) (i : Instr) (f : Force) (path : Path), i.opcode.toNat < 0x0A → exec i s = .next t →
    exec i { s with force := f, active := path } = .next { t with force := f, active := path }

/-! ## Capability queries, path control, test hook -/

/-- `HASACCEL` completes and reports whether the accelerated datapath exists, whatever is forced or selected (R181). -/
def Obligations.HasaccelReportsPresence : Prop :=
  ∀ s : State, exec (.hasaccel 0 0 []) s =
    .next { s with output := s.output ++ [.ok [if s.params.hwAccelPresent then 0x01 else 0x00]] }

/-- `HASWIDE` completes and reports the advisory capability (R182). -/
def Obligations.HaswideReportsPresence : Prop :=
  ∀ s : State, exec (.haswide 0 0 []) s =
    .next { s with output := s.output ++ [.ok [if s.params.wideVectorPresent then 0x01 else 0x00]] }

/-- `PARALLEL` completes and reports the hint, least significant byte first (R183). -/
def Obligations.ParallelReportsHint : Prop :=
  ∀ s : State, exec (.parallel 0 0 []) s =
    .next { s with output := s.output ++ [.ok [s.params.parHint.extractLsb' 0 8, s.params.parHint.extractLsb' 8 8,
      s.params.parHint.extractLsb' 16 8, s.params.parHint.extractLsb' 24 8]] }

/-- `SETPATH` completes for every mode that exists (R184): it sets the mode and the datapath, `KEEP` keeps both, it
answers both as they are afterwards, and it writes nothing else. -/
def Obligations.SetpathSetsSelection : Prop :=
  ∀ s : State,
    exec (.setpath 0 0 []) s = .next { s with
      force := .auto
      active := if s.params.hwAccelPresent then .accel else .portable
      output := s.output ++ [.ok [0, if s.params.hwAccelPresent then 1 else 0]] } ∧
    exec (.setpath 0 1 []) s = .next { s with
      force := .portable, active := .portable, output := s.output ++ [.ok [1, 0]] } ∧
    (s.params.hwAccelPresent = true → exec (.setpath 0 2 []) s = .next { s with
      force := .accel, active := .accel, output := s.output ++ [.ok [2, 1]] }) ∧
    exec (.setpath 0 3 []) s = .next { s with
      output := s.output ++ [.ok [BitVec.ofNat 8 s.force.code, BitVec.ofNat 8 s.active.code]] }

/-- Forcing a datapath that does not exist answers `ERR_UNSUPPORTED` and changes nothing (R184, R202). -/
def Obligations.SetpathRefusesAbsentPath : Prop :=
  ∀ s : State, s.params.hwAccelPresent = false →
    exec (.setpath 0 2 []) s = .next { s with output := s.output ++ [.err .unsupported] }

/-- `DBGRD` completes on a slot of any phase and on the scratch context with the 138 bytes of R186: bytes 0..63 the
HashState, 64..127 the buffer with its stale bytes, 128 the count, 129..136 the total, 137 the phase. -/
def Obligations.DbgrdDumpsContext : Prop :=
  ∀ (s : State) (h : Byte) (c : Ctx), s.params.testHookEn = true →
    (h = 0xFF ∧ c = s.scr ∨ h ≠ 0xFE ∧ h ≠ 0xFF ∧ s.slots[h.toNat]? = some c) →
    ∃ d, exec (.dbgrd h 0 []) s = .next { s with output := s.output ++ [.ok d] } ∧ d.length = 138 ∧
      d.take 64 = c.hashState.toList ∧ (d.drop 64).take 64 = c.buf.toList ∧ leNat ((d.drop 128).take 1) = c.cnt.toNat ∧
      leNat ((d.drop 129).take 8) = c.tot.toNat ∧
      d.drop 137 = [match c.phase with | .free => 0 | .active => 1 | .finalized => 2]

/-- `DBGRD` with 0xFE completes with the 16 bytes of the global dump: `CTRL`, `CAP`, `PARH`, `PSEL`, each little-endian
with its reserved bits zero (R186, R31 to R35). -/
def Obligations.DbgrdDumpsGlobals : Prop :=
  ∀ s : State, s.params.testHookEn = true →
    ∃ d, exec (.dbgrd 0xFE 0 []) s = .next { s with output := s.output ++ [.ok d] } ∧ d.length = 16 ∧
      leNat (d.take 4) = (match s.force with | .auto => 0 | .portable => 1 | .accel => 2) ∧
      leNat ((d.drop 4).take 4) =
        (if s.params.hwAccelPresent then 1 else 0) + (if s.params.wideVectorPresent then 2 else 0) ∧
      leNat ((d.drop 8).take 4) = s.params.parHint.toNat ∧
      leNat (d.drop 12) = (match s.active with | .portable => 0 | .accel => 1)

/-- Without the test hook `DBGRD` is an illegal opcode whatever its operands are (R185, R202). -/
def Obligations.DbgrdNeedsTestHook : Prop :=
  ∀ (s : State) (h a : Byte) (pay : List Byte), s.params.testHookEn = false →
    exec (.dbgrd h a pay) s = .next { s with output := s.output ++ [.err .illegal] }

/-- Context hygiene: after a `FINALIZE` of an `ACTIVE` slot the dump of the slot is 137 zero bytes and the phase 2, and an
`UPDATE` of it is answered `ERR_FINALIZED` (R158, R163, R240). -/
def Obligations.FinalizedContextIsZeroed : Prop :=
  ∀ (s : State) (h : Byte) (c : Ctx) (pay : List Byte), s.params.testHookEn = true → h ≠ 0xFE → h ≠ 0xFF →
    s.slots[h.toNat]? = some c → c.phase = .active →
    ∃ t u r, exec (.finalize h 0 []) s = .next t ∧
      runCommands [.dbgrd h 0 [], .update h 0 pay] t = .next u ∧
      t.output = s.output ++ [r] ∧ u.output = t.output ++ [.ok (zeros 137 ++ [2]), .err .finalized]

/-- The payload of every `OK` response has the length that R98 gives the command. -/
def Obligations.OkResponseLengths : Prop :=
  ∀ (i : Instr) (s t : State) (out : List Byte), exec i s = .next t → t.output = s.output ++ [.ok out] →
    out.length = okLength i
end

