-- ==== Sys2Proof/Laws/Bytes.lean ====
section
/-! SUPPORT. Lemmas about byte strings: one or two for each definition of Machine/Bytes.lean. -/

namespace Sys2Proof.Machine

@[simp] theorem leBytes_length (n v : Nat) : (leBytes n v).length = n := by
  induction n generalizing v with
  | zero => rfl
  | succ n ih => simp [leBytes, ih]

/-- Reading back what `leBytes` wrote gives the value modulo `2^(8n)`. -/
theorem leNat_leBytes (n v : Nat) : leNat (leBytes n v) = v % 256 ^ n := by
  induction n generalizing v with
  | zero => simp [leBytes, leNat, Nat.mod_one]
  | succ n ih =>
    have h : v % 256 ^ (n + 1) = v % 256 + 256 * (v / 256 % 256 ^ n) := by
      rw [Nat.pow_succ', Nat.mod_mul]
    rw [h, leBytes, leNat, ih, BitVec.toNat_ofNat]

theorem leNat_lt (l : List Byte) : leNat l < 256 ^ l.length := by
  induction l with
  | nil => simp [leNat]
  | cons b l ih =>
    have := b.isLt
    simp only [leNat, List.length_cons, pow_succ]
    omega

/-- Writing back what `leNat` read gives the bytes. -/
theorem leBytes_leNat (l : List Byte) : leBytes l.length (leNat l) = l := by
  induction l with
  | nil => rfl
  | cons b l ih =>
    have hb : b.toNat < 256 := b.isLt
    have h1 : (b.toNat + 256 * leNat l) / 256 = leNat l := by omega
    have h2 : BitVec.ofNat 8 (b.toNat + 256 * leNat l) = b := by
      apply BitVec.eq_of_toNat_eq
      simp only [BitVec.toNat_ofNat]
      omega
    simp only [leNat, List.length_cons, leBytes, h1, h2, ih]

@[simp] theorem zeros_length (n : Nat) : (zeros n).length = n := List.length_replicate

@[simp] theorem xorBytes_getElem {n : Nat} (a b : Vector Byte n) (j : Nat) (h : j < n) :
    (xorBytes a b)[j] = a[j] ^^^ b[j] := by
  simp [xorBytes]

@[simp] theorem laneOf_getElem (b : Block) (i : Fin 4) (j : Nat) (h : j < 16) :
    (laneOf b i)[j] = b[16 * i.val + j]'(by omega) := by
  simp [laneOf]

@[simp] theorem blockOfLanes_getElem (x : Vector Lane 4) (j : Nat) (h : j < 64) :
    (blockOfLanes x)[j] = (x[j / 16]'(by omega))[j % 16]'(by omega) := by
  simp [blockOfLanes]

@[simp] theorem blockOfBytes_getElem (l : List Byte) (j : Nat) (h : j < 64) :
    (blockOfBytes l)[j] = l.getD j 0 := by
  simp [blockOfBytes]

@[simp] theorem zeroBytes_getElem (n j : Nat) (h : j < n) : (zeroBytes n)[j] = 0 := by
  simp [zeroBytes]

@[simp] theorem readPay_length (pay : List Byte) (addr n : Nat) :
    (readPay pay addr n).length = min n (pay.length - addr) := by
  simp [readPay]

/-- One byte of the buffer after a write: the written byte inside the run, the old one outside it. -/
@[simp] theorem writeBuf_getElem (b : Block) (addr : Nat) (v : List Byte) (j : Nat) (h : j < 64) :
    (writeBuf b addr v)[j] = if addr ≤ j ∧ j < addr + v.length then v.getD (j - addr) 0 else b[j] := by
  simp [writeBuf]

@[simp] theorem writeBuf_nil (b : Block) (addr : Nat) : writeBuf b addr [] = b := by
  apply Vector.ext
  intro j h
  have : ¬(addr ≤ j ∧ j < addr + ([] : List Byte).length) := by simp
  rw [writeBuf_getElem, if_neg this]

/-- A block taken apart into its lanes and put together again. -/
theorem blockOfLanes_lanes (b : Block) : blockOfLanes (Vector.ofFn fun i => laneOf b i) = b := by
  apply Vector.ext
  intro j h
  simp only [blockOfLanes_getElem, Vector.getElem_ofFn, laneOf_getElem]
  congr 1
  omega

theorem blockOfBytes_toList (b : Block) : blockOfBytes b.toList = b := by
  apply Vector.ext
  intro j h
  simp [List.getD_eq_getElem?_getD, h]

end Sys2Proof.Machine
end

