-- ==== Sys2Proof/Laws/State.lean ====
section
/-! SUPPORT. One lemma per field for each update of the state and of a context, all by `rfl`, so that no later proof
unfolds a record update. -/

namespace Sys2Proof.Machine

section Respond
variable (payload : List Byte) (s : State)
@[simp] theorem respond_params : (respond payload s).params = s.params := rfl
@[simp] theorem respond_slots : (respond payload s).slots = s.slots := rfl
@[simp] theorem respond_scr : (respond payload s).scr = s.scr := rfl
@[simp] theorem respond_force : (respond payload s).force = s.force := rfl
@[simp] theorem respond_active : (respond payload s).active = s.active := rfl
@[simp] theorem respond_input : (respond payload s).input = s.input := rfl
@[simp] theorem respond_output : (respond payload s).output = s.output ++ [.ok payload] := rfl
end Respond

section Raise
variable (e : Err) (s : State)
@[simp] theorem raise_params : (raise e s).params = s.params := rfl
@[simp] theorem raise_slots : (raise e s).slots = s.slots := rfl
@[simp] theorem raise_scr : (raise e s).scr = s.scr := rfl
@[simp] theorem raise_force : (raise e s).force = s.force := rfl
@[simp] theorem raise_active : (raise e s).active = s.active := rfl
@[simp] theorem raise_input : (raise e s).input = s.input := rfl
@[simp] theorem raise_output : (raise e s).output = s.output ++ [.err e] := rfl
end Raise

section SetSlot
variable (h : Nat) (c : Ctx) (s : State)
@[simp] theorem setSlot_params : (s.setSlot h c).params = s.params := rfl
@[simp] theorem setSlot_slots : (s.setSlot h c).slots = s.slots.set h c := rfl
@[simp] theorem setSlot_scr : (s.setSlot h c).scr = s.scr := rfl
@[simp] theorem setSlot_force : (s.setSlot h c).force = s.force := rfl
@[simp] theorem setSlot_active : (s.setSlot h c).active = s.active := rfl
@[simp] theorem setSlot_input : (s.setSlot h c).input = s.input := rfl
@[simp] theorem setSlot_output : (s.setSlot h c).output = s.output := rfl
end SetSlot

section Consume
variable (rest : List Byte) (s : State)
@[simp] theorem consume_params : (s.consume rest).params = s.params := rfl
@[simp] theorem consume_slots : (s.consume rest).slots = s.slots := rfl
@[simp] theorem consume_scr : (s.consume rest).scr = s.scr := rfl
@[simp] theorem consume_force : (s.consume rest).force = s.force := rfl
@[simp] theorem consume_active : (s.consume rest).active = s.active := rfl
@[simp] theorem consume_input : (s.consume rest).input = rest := rfl
@[simp] theorem consume_output : (s.consume rest).output = s.output := rfl
end Consume

section WithFetchWord
variable (nbits w : Nat) (s : State)
@[simp] theorem withFetchWord_params : (s.withFetchWord nbits w).params = s.params := rfl
@[simp] theorem withFetchWord_slots : (s.withFetchWord nbits w).slots = s.slots := rfl
@[simp] theorem withFetchWord_scr : (s.withFetchWord nbits w).scr = s.scr := rfl
@[simp] theorem withFetchWord_force : (s.withFetchWord nbits w).force = s.force := rfl
@[simp] theorem withFetchWord_active : (s.withFetchWord nbits w).active = s.active := rfl
@[simp] theorem withFetchWord_input : (s.withFetchWord nbits w).input = tablePacket nbits w ++ s.input := rfl
@[simp] theorem withFetchWord_output : (s.withFetchWord nbits w).output = s.output := rfl
end WithFetchWord

section ResetWith
variable (p : Params) (n : Nat)
@[simp] theorem resetWith_params : (State.resetWith p n).params = p := rfl
@[simp] theorem resetWith_slots : (State.resetWith p n).slots = List.replicate n Ctx.zero := rfl
@[simp] theorem resetWith_scr : (State.resetWith p n).scr = Ctx.zero := rfl
@[simp] theorem resetWith_force : (State.resetWith p n).force = .auto := rfl
@[simp] theorem resetWith_active : (State.resetWith p n).active = if p.hwAccelPresent then .accel else .portable := rfl
@[simp] theorem resetWith_input : (State.resetWith p n).input = [] := rfl
@[simp] theorem resetWith_output : (State.resetWith p n).output = [] := rfl
end ResetWith

section CtxInit
variable (p : Params) (c : Ctx)
@[simp] theorem init_hashState :
    (c.init p).hashState = ivBlock p := by cases c; rfl
@[simp] theorem init_buf :
    (c.init p).buf = zeroBytes 64 := by cases c; rfl
@[simp] theorem init_cnt :
    (c.init p).cnt = 0 := by cases c; rfl
@[simp] theorem init_tot :
    (c.init p).tot = 0 := by cases c; rfl
@[simp] theorem init_phase :
    (c.init p).phase = c.phase := by cases c; rfl
end CtxInit

section CtxClear
variable (c : Ctx)
@[simp] theorem clear_hashState :
    (c.clear).hashState = zeroBytes 64 := by cases c; rfl
@[simp] theorem clear_buf :
    (c.clear).buf = zeroBytes 64 := by cases c; rfl
@[simp] theorem clear_cnt :
    (c.clear).cnt = 0 := by cases c; rfl
@[simp] theorem clear_tot :
    (c.clear).tot = 0 := by cases c; rfl
@[simp] theorem clear_phase :
    (c.clear).phase = c.phase := by cases c; rfl
end CtxClear

section CtxAbsorb
variable (path : Path) (p : Params) (b : Block) (c : Ctx)
@[simp] theorem absorb_hashState :
    (c.absorb path p b).hashState = absorbState path p c.hashState b := by cases c; rfl
@[simp] theorem absorb_buf :
    (c.absorb path p b).buf = c.buf := by cases c; rfl
@[simp] theorem absorb_cnt :
    (c.absorb path p b).cnt = c.cnt := by cases c; rfl
@[simp] theorem absorb_tot :
    (c.absorb path p b).tot = c.tot := by cases c; rfl
@[simp] theorem absorb_phase :
    (c.absorb path p b).phase = c.phase := by cases c; rfl
end CtxAbsorb

section StoreLeftover
variable (bytes : List Byte) (c : Ctx)
@[simp] theorem storeLeftover_hashState :
    (c.storeLeftover bytes).hashState = c.hashState := by cases c; rfl
@[simp] theorem storeLeftover_buf :
    (c.storeLeftover bytes).buf = writeBuf c.buf c.cnt.toNat bytes := by cases c; rfl
@[simp] theorem storeLeftover_cnt :
    (c.storeLeftover bytes).cnt = BitVec.ofNat 6 (c.cnt.toNat + bytes.length) := by cases c; rfl
@[simp] theorem storeLeftover_tot :
    (c.storeLeftover bytes).tot = c.tot := by cases c; rfl
@[simp] theorem storeLeftover_phase :
    (c.storeLeftover bytes).phase = c.phase := by cases c; rfl
end StoreLeftover

end Sys2Proof.Machine
end

