-- ==== Sys2Proof/Laws/Commands.lean ====
section
/-! SUPPORT. What the frame of a command, the operand checks and the handle checks can answer, said once each. -/

namespace Sys2Proof.Machine

/-! ### The frame of a command -/

/-- A command whose operands are legal and whose own checks pass. -/
theorem commandState_ok {f : OperandForm} {hnd arg : Byte} {pay : List Byte} {s t : State} {out : List Byte}
    (h : operandError f hnd arg pay.length = none) :
    commandState f hnd arg pay s (.ok (t, out)) = respond out t := by
  simp only [commandState, h]

/-- A command whose own checks fail. -/
theorem commandState_error {f : OperandForm} {hnd arg : Byte} {pay : List Byte} {s : State} {e : Err}
    (h : operandError f hnd arg pay.length = none) :
    commandState f hnd arg pay s (.error e) = raise e s := by
  simp only [commandState, h]

/-- A command whose operands are illegal, whatever its effect would have been. -/
theorem commandState_operandError {f : OperandForm} {hnd arg : Byte} {pay : List Byte} {s : State} {e : Err}
    {x : Effect} (h : operandError f hnd arg pay.length = some e) :
    commandState f hnd arg pay s x = raise e s := by
  simp only [commandState, h]

/-- Everything a command can do: raise an error from the state it found, or respond from the state its effect gives. -/
theorem commandState_cases (f : OperandForm) (hnd arg : Byte) (pay : List Byte) (s : State) (x : Effect) :
    (∃ e, commandState f hnd arg pay s x = raise e s) ∨
    (∃ t out, operandError f hnd arg pay.length = none ∧ x = .ok (t, out) ∧
      commandState f hnd arg pay s x = respond out t) := by
  cases h : operandError f hnd arg pay.length with
  | some e => exact .inl ⟨e, commandState_operandError h⟩
  | none =>
    cases x with
    | error e => exact .inl ⟨e, commandState_error h⟩
    | ok r => exact .inr ⟨r.1, r.2, rfl, rfl, commandState_ok h⟩

/-! ### Operand checks -/

theorem operandError_illegal {f : OperandForm} {hnd arg : Byte} {len : Nat} :
    operandError f hnd arg len = some .illegal ↔ (f.takesHandle = false ∧ hnd ≠ 0) ∨ f.maxArg < arg.toNat := by
  unfold operandError
  split
  · simpa
  · split <;> simp_all

theorem operandError_badLen {f : OperandForm} {hnd arg : Byte} {len : Nat} :
    operandError f hnd arg len = some .badLen ↔
      ¬((f.takesHandle = false ∧ hnd ≠ 0) ∨ f.maxArg < arg.toNat) ∧ f.len.accepts len = false := by
  unfold operandError
  split
  · simp_all
  · split <;> simp_all

theorem operandError_none {f : OperandForm} {hnd arg : Byte} {len : Nat} :
    operandError f hnd arg len = none ↔
      ¬((f.takesHandle = false ∧ hnd ≠ 0) ∨ f.maxArg < arg.toNat) ∧ f.len.accepts len = true := by
  unfold operandError
  split
  · simp_all
  · split <;> simp_all

/-! ### Handle checks -/

theorem activeSlot_ok {s : State} {hnd : Byte} {c : Ctx} :
    s.activeSlot hnd = .ok c ↔ s.slots[hnd.toNat]? = some c ∧ c.phase = .active := by
  unfold State.activeSlot State.slot?
  cases s.slots[hnd.toNat]? with
  | none => simp
  | some d =>
    cases hp : d.phase <;> simp [hp]
    · rintro rfl
      simp [hp]
    · rintro rfl
      exact hp
    · rintro rfl
      simp [hp]

theorem takenSlot_ok {s : State} {hnd : Byte} {c : Ctx} :
    s.takenSlot hnd = .ok c ↔ s.slots[hnd.toNat]? = some c ∧ c.phase ≠ .free := by
  unfold State.takenSlot State.slot?
  cases s.slots[hnd.toNat]? with
  | none => simp
  | some d =>
    cases hp : d.phase <;> simp [hp]
    · rintro rfl
      exact hp
    · rintro rfl
      simp [hp]
    · rintro rfl
      simp [hp]

/-- The slot `CREATE` takes exists, is `FREE`, and no lower one is (R156). -/
theorem smallestFree_some {s : State} {h : Nat} (hf : s.smallestFree = some h) :
    ∃ c, s.slots[h]? = some c ∧ c.phase = .free ∧ ∀ j d, j < h → s.slots[j]? = some d → d.phase ≠ .free := by
  unfold State.smallestFree at hf
  rw [List.findIdx?_eq_some_iff_getElem] at hf
  obtain ⟨hlt, hp, hlow⟩ := hf
  refine ⟨s.slots[h], by simp [hlt], by simpa using hp, ?_⟩
  intro j d hj hd
  obtain ⟨hjl, rfl⟩ := List.getElem?_eq_some_iff.mp hd
  simpa using hlow j hj

/-- `CREATE` finds no slot only if none is `FREE` (R156). -/
theorem smallestFree_none {s : State} : s.smallestFree = none ↔ ∀ c ∈ s.slots, c.phase ≠ .free := by
  unfold State.smallestFree
  simp [List.findIdx?_eq_none_iff]

end Sys2Proof.Machine
end

