-- ==== Sys2Proof/Laws/Decode.lean ====
section
/-! SUPPORT. Framing, said once: what a framed packet is made of. -/

namespace Sys2Proof

open Machine (leBytes leNat leBytes_length leNat_leBytes leBytes_leNat leNat_lt)

/-- A header and its payload frame as the packet they are, whatever follows (R90, R92). -/
theorem frame_packet (opc hnd arg rsv : Byte) (pay rest : List Byte) (h : pay.length < 2 ^ 64) :
    frame ([opc, hnd, arg, rsv] ++ leBytes 8 pay.length ++ pay ++ rest) =
      some (⟨opc, hnd, arg, rsv, pay⟩, rest) := by
  have hn : leNat (leBytes 8 pay.length) = pay.length := by
    rw [leNat_leBytes]
    omega
  simp only [leBytes] at hn ⊢
  simp only [List.cons_append, List.nil_append, frame, hn, List.length_append]
  rw [if_pos (by omega), List.take_left, List.drop_left]

/-- Framing reads nothing but a header and the payload the header announces (R90, R92). -/
theorem frame_some {bs rest : List Byte} {p : Packet} (h : frame bs = some (p, rest)) :
    bs = [p.opc, p.hnd, p.arg, p.rsv] ++ leBytes 8 p.pay.length ++ p.pay ++ rest ∧ p.pay.length < 2 ^ 64 := by
  unfold frame at h
  split at h
  · rename_i opc hnd arg rsv l0 l1 l2 l3 l4 l5 l6 l7 body
    simp only at h
    split at h
    · rename_i hle
      have hlt := leNat_lt [l0, l1, l2, l3, l4, l5, l6, l7]
      have hback := leBytes_leNat [l0, l1, l2, l3, l4, l5, l6, l7]
      simp only [List.length_cons, List.length_nil, Nat.zero_add] at hlt hback
      simp only [Option.some.injEq, Prod.mk.injEq] at h
      obtain ⟨rfl, rfl⟩ := h
      have hl : (body.take (leNat [l0, l1, l2, l3, l4, l5, l6, l7])).length
          = leNat [l0, l1, l2, l3, l4, l5, l6, l7] := by
        rw [List.length_take]
        omega
      refine ⟨?_, ?_⟩
      · simp only [hl]
        rw [hback]
        simp
      · rw [hl]
        omega
    · exact absurd h (by simp)
  · exact absurd h (by simp)

end Sys2Proof
end

