-- ==== Sys2Proof/Laws/Sponge.lean ====
section
/-! SUPPORT. What the shared procedures of the Sponge Engine do, said once each: `append_spec` and `finish_spec` speak of
the message bytes a context holds, so that no later proof unfolds `Append` or `Finish`. -/

namespace Sys2Proof.Machine

variable (path : Path) (p : Params)

/-! ### The valid bytes of a buffer -/

theorem cnt_lt (c : Ctx) : c.cnt.toNat < 64 := c.cnt.isLt

@[simp] theorem validBytes_length (c : Ctx) : c.validBytes.length = c.cnt.toNat := by
  have := cnt_lt c
  simp only [Ctx.validBytes, List.length_take, Vector.length_toList]
  omega

theorem validBytes_getElem (c : Ctx) (j : Nat) (h : j < c.cnt.toNat) :
    c.validBytes[j]'(by simpa using h) = c.buf[j]'(by have := cnt_lt c; omega) := by
  simp [Ctx.validBytes]

theorem validBytes_of_cnt_zero (c : Ctx) (h : c.cnt = 0) : c.validBytes = [] := by
  simp [Ctx.validBytes, h]

/-- A buffer written from its count on holds the old valid bytes followed by the new ones. -/
theorem take_writeBuf (b : Block) (n : Nat) (v : List Byte) (h : n + v.length ≤ 64) :
    (writeBuf b n v).toList.take (n + v.length) = b.toList.take n ++ v := by
  apply List.ext_getElem
  · simp
    omega
  · intro j h1 h2
    have hj : j < n + v.length := by simp at h1; omega
    simp only [List.getElem_take, Vector.getElem_toList, writeBuf_getElem]
    by_cases hn : j < n
    · rw [if_neg (by omega), List.getElem_append_left (by simp; omega)]
      simp
    · rw [if_pos (by omega), List.getElem_append_right (by simp; omega)]
      have hl : j - n < v.length := by omega
      have hm : min n 64 = n := by omega
      simp [List.getD_eq_getElem?_getD, hl, hm]

/-! ### Absorbing a byte string block by block -/

theorem absorbBytes_add (j k : Nat) (m : List Byte) (s : Block) :
    absorbBytes path p (j + k) m s = absorbBytes path p k (m.drop (64 * j)) (absorbBytes path p j m s) := by
  induction j generalizing m s with
  | zero => simp [absorbBytes]
  | succ j ih =>
    rw [Nat.succ_add, absorbBytes, ih, absorbBytes, List.drop_drop, Nat.mul_succ, Nat.add_comm 64]

/-- Bytes after the blocks that are absorbed do not matter. -/
theorem absorbBytes_append (k : Nat) (m m' : List Byte) (s : Block) (h : 64 * k ≤ m.length) :
    absorbBytes path p k (m ++ m') s = absorbBytes path p k m s := by
  induction k generalizing m s with
  | zero => rfl
  | succ k ih =>
    rw [absorbBytes, absorbBytes, List.take_append_of_le_length (by omega),
      List.drop_append_of_le_length (by omega), ih _ _ (by simp; omega)]

@[simp] theorem absorbDirect_hashState (k : Nat) (m : List Byte) (c : Ctx) :
    (absorbDirect path p k m c).hashState = absorbBytes path p k m c.hashState := by
  induction k generalizing m c with
  | zero => rfl
  | succ k ih => rw [absorbDirect, ih, absorbBytes]; rfl

@[simp] theorem absorbDirect_buf (k : Nat) (m : List Byte) (c : Ctx) :
    (absorbDirect path p k m c).buf = c.buf := by
  induction k generalizing m c with
  | zero => rfl
  | succ k ih => rw [absorbDirect, ih, absorb_buf]

@[simp] theorem absorbDirect_cnt (k : Nat) (m : List Byte) (c : Ctx) :
    (absorbDirect path p k m c).cnt = c.cnt := by
  induction k generalizing m c with
  | zero => rfl
  | succ k ih => rw [absorbDirect, ih, absorb_cnt]

@[simp] theorem absorbDirect_tot (k : Nat) (m : List Byte) (c : Ctx) :
    (absorbDirect path p k m c).tot = c.tot := by
  induction k generalizing m c with
  | zero => rfl
  | succ k ih => rw [absorbDirect, ih, absorb_tot]

@[simp] theorem absorbDirect_phase (k : Nat) (m : List Byte) (c : Ctx) :
    (absorbDirect path p k m c).phase = c.phase := by
  induction k generalizing m c with
  | zero => rfl
  | succ k ih => rw [absorbDirect, ih, absorb_phase]

/-! ### The top-up -/

/-- A top-up that does not fill the buffer: the bytes join the valid ones. -/
theorem topUp_short (bytes : List Byte) (c : Ctx) (h : c.cnt.toNat + bytes.length < 64) :
    c.topUp path p bytes =
      { c with
        buf := writeBuf c.buf c.cnt.toNat bytes
        cnt := BitVec.ofNat 6 (c.cnt.toNat + bytes.length) } := by
  simp only [Ctx.topUp]
  rw [if_neg (by omega)]

/-- A top-up that fills the buffer: the block is absorbed, the count is reset and the bytes stay (R153 note (b)). -/
theorem topUp_full (bytes : List Byte) (c : Ctx) (h : c.cnt.toNat + bytes.length = 64) :
    c.topUp path p bytes =
      { c with
        hashState := absorbState path p c.hashState (blockOfBytes (c.validBytes ++ bytes))
        buf := writeBuf c.buf c.cnt.toNat bytes
        cnt := 0 } := by
  have hb : blockOfBytes (c.validBytes ++ bytes) = writeBuf c.buf c.cnt.toNat bytes := by
    rw [Ctx.validBytes, ← take_writeBuf _ _ _ (by omega), h, List.take_of_length_le (by simp), blockOfBytes_toList]
  simp only [Ctx.topUp]
  rw [if_pos h, hb]
  simp only [Ctx.absorb]

/-! ### Append -/

theorem toNat_ofNat_six (n : Nat) (h : n < 64) : (BitVec.ofNat 6 n).toNat = n := by
  rw [BitVec.toNat_ofNat]
  omega

/-- Bytes stored behind the valid ones join them. -/
theorem storeLeftover_validBytes (bytes : List Byte) (c : Ctx) (h : c.cnt.toNat + bytes.length < 64) :
    (c.storeLeftover bytes).validBytes = c.validBytes ++ bytes := by
  rw [Ctx.validBytes, storeLeftover_cnt, storeLeftover_buf, toNat_ofNat_six _ h, take_writeBuf _ _ _ (by omega),
    Ctx.validBytes]

/-- The part of `Append` after the top-up: either the buffer is empty or no payload is left. -/
theorem direct_spec (rest : List Byte) (c : Ctx) (h : c.cnt = 0 ∨ rest = []) :
    let r := (absorbDirect path p (rest.length / 64) rest c).storeLeftover
      (readPay rest (64 * (rest.length / 64)) (rest.length - 64 * (rest.length / 64)))
    r.hashState = absorbBytes path p (rest.length / 64) rest c.hashState ∧
    r.validBytes = c.validBytes ++ rest.drop (64 * (rest.length / 64)) ∧
    r.cnt.toNat = c.cnt.toNat + rest.length % 64 ∧ r.tot = c.tot ∧ r.phase = c.phase := by
  intro r
  have hread : readPay rest (64 * (rest.length / 64)) (rest.length - 64 * (rest.length / 64))
      = rest.drop (64 * (rest.length / 64)) := by
    rw [readPay, List.take_of_length_le (by simp)]
  have hlen : c.cnt.toNat + (rest.drop (64 * (rest.length / 64))).length < 64 := by
    have := cnt_lt c
    rcases h with h | h
    · rw [h]
      simp
      omega
    · simp [h]
      omega
  have hv : (absorbDirect path p (rest.length / 64) rest c).validBytes = c.validBytes := by
    simp [Ctx.validBytes]
  have hr : r = (absorbDirect path p (rest.length / 64) rest c).storeLeftover
      (rest.drop (64 * (rest.length / 64))) := by rw [← hread]
  rw [hr]
  refine ⟨by simp, ?_, ?_, by simp, by simp⟩
  · rw [storeLeftover_validBytes _ _ (by simpa using hlen), hv]
  · rw [storeLeftover_cnt, absorbDirect_cnt, toNat_ofNat_six _ hlen, List.length_drop]
    omega

/-- What `Append` does (R153): the valid bytes followed by the payload are absorbed as far as they make complete blocks,
and the rest of them is what the buffer holds afterwards. -/
theorem append_spec (pay : List Byte) (c : Ctx) :
    (c.append path p pay).hashState
        = absorbBytes path p ((c.cnt.toNat + pay.length) / 64) (c.validBytes ++ pay) c.hashState ∧
    (c.append path p pay).validBytes
        = (c.validBytes ++ pay).drop (64 * ((c.cnt.toNat + pay.length) / 64)) ∧
    (c.append path p pay).cnt.toNat = (c.cnt.toNat + pay.length) % 64 ∧
    (c.append path p pay).tot = c.tot + BitVec.ofNat 64 pay.length ∧
    (c.append path p pay).phase = c.phase := by
  have hn := cnt_lt c
  obtain ⟨c', hc'⟩ : ∃ c', c' = { c with tot := c.tot + BitVec.ofNat 64 pay.length } := ⟨_, rfl⟩
  have hs : c'.hashState = c.hashState := by rw [hc']
  have hcnt : c'.cnt = c.cnt := by rw [hc']
  have hbuf : c'.buf = c.buf := by rw [hc']
  have htot : c'.tot = c.tot + BitVec.ofNat 64 pay.length := by rw [hc']
  have hph : c'.phase = c.phase := by rw [hc']
  have hval : c'.validBytes = c.validBytes := by rw [Ctx.validBytes, hbuf, hcnt, Ctx.validBytes]
  have happ : c.append path p pay =
      (absorbDirect path p ((pay.drop (topUpCount c.cnt.toNat pay.length)).length / 64)
        (pay.drop (topUpCount c.cnt.toNat pay.length))
        (c'.topUp path p (readPay pay 0 (topUpCount c.cnt.toNat pay.length)))).storeLeftover
        (readPay (pay.drop (topUpCount c.cnt.toNat pay.length))
          (64 * ((pay.drop (topUpCount c.cnt.toNat pay.length)).length / 64))
          ((pay.drop (topUpCount c.cnt.toNat pay.length)).length
            - 64 * ((pay.drop (topUpCount c.cnt.toNat pay.length)).length / 64))) := by
    rw [hc']
    simp only [Ctx.append]
  rw [happ]
  by_cases h0 : c.cnt.toNat = 0
  · -- an empty buffer: nothing is topped up
    have hoff : topUpCount c.cnt.toNat pay.length = 0 := by simp [topUpCount, h0]
    have hz : c.cnt = 0 := BitVec.eq_of_toNat_eq (by simpa using h0)
    have htop : c'.topUp path p (readPay pay 0 0) = c' := by
      rw [topUp_short _ _ _ _ (by simp [readPay, hcnt, h0])]
      simp only [readPay, List.take_zero, writeBuf_nil, List.length_nil, Nat.add_zero, BitVec.ofNat_toNat,
        BitVec.setWidth_eq]
    rw [hoff, List.drop_zero, htop]
    obtain ⟨a, b, d, e, f⟩ := direct_spec path p pay c' (Or.inl (hcnt.trans hz))
    rw [a, b, d, e, f, hs, hcnt, htot, hph, hval, validBytes_of_cnt_zero c hz, h0]
    simp
  · by_cases hfull : c.cnt.toNat + pay.length < 64
    · -- the whole payload goes into the buffer
      have hoff : topUpCount c.cnt.toNat pay.length = pay.length := by
        rw [topUpCount, if_neg h0]
        omega
      have hread : readPay pay 0 pay.length = pay := by simp [readPay]
      rw [hoff, hread, List.drop_length, topUp_short _ _ _ _ (by rw [hcnt]; exact hfull)]
      obtain ⟨a, b, d, e, f⟩ := direct_spec path p []
        { c' with
          buf := writeBuf c'.buf c'.cnt.toNat pay
          cnt := BitVec.ofNat 6 (c'.cnt.toNat + pay.length) } (Or.inr rfl)
      have hk : (c.cnt.toNat + pay.length) / 64 = 0 := by omega
      rw [a, b, d, e, f, hk]
      simp only [hs, hcnt, htot, hph, hbuf, absorbBytes, Ctx.validBytes, List.length_nil, Nat.zero_div,
        List.drop_nil, List.append_nil, Nat.mul_zero, List.drop_zero, toNat_ofNat_six _ hfull,
        take_writeBuf c.buf c.cnt.toNat pay (by omega)]
      refine ⟨trivial, trivial, by omega, trivial, trivial⟩
    · -- the buffer fills up and is absorbed
      have hoff : topUpCount c.cnt.toNat pay.length = 64 - c.cnt.toNat := by
        rw [topUpCount, if_neg h0]
        omega
      have hl : (readPay pay 0 (64 - c.cnt.toNat)).length = 64 - c.cnt.toNat := by
        simp
        omega
      have htake : readPay pay 0 (64 - c.cnt.toNat) = pay.take (64 - c.cnt.toNat) := by simp [readPay]
      rw [hoff, topUp_full _ _ _ _ (by rw [hl, hcnt]; omega)]
      obtain ⟨a, b, d, e, f⟩ := direct_spec path p (pay.drop (64 - c.cnt.toNat))
        { c' with
          hashState := absorbState path p c'.hashState
            (blockOfBytes (c'.validBytes ++ readPay pay 0 (64 - c.cnt.toNat)))
          buf := writeBuf c'.buf c'.cnt.toNat (readPay pay 0 (64 - c.cnt.toNat))
          cnt := 0 } (Or.inl rfl)
      have hrest : (pay.drop (64 - c.cnt.toNat)).length = pay.length - (64 - c.cnt.toNat) := by simp
      have hk : (c.cnt.toNat + pay.length) / 64 = (pay.drop (64 - c.cnt.toNat)).length / 64 + 1 := by omega
      have hblock : (c.validBytes ++ pay).take 64 = c.validBytes ++ pay.take (64 - c.cnt.toNat) := by
        rw [List.take_append, validBytes_length, List.take_of_length_le (by simp; omega)]
      have hdrop : (c.validBytes ++ pay).drop 64 = pay.drop (64 - c.cnt.toNat) := by
        rw [List.drop_append, validBytes_length, List.drop_of_length_le (by simp; omega), List.nil_append]
      rw [a, b, d, e, f, hk, absorbBytes, hblock, hdrop, Nat.mul_succ, Nat.add_comm (64 * _) 64, ← List.drop_drop, hdrop]
      simp only [hs, htot, hph, hval, htake, true_and, and_true]
      refine ⟨?_, ?_⟩
      · rw [validBytes_of_cnt_zero _ rfl, List.nil_append]
      · have hzero : (0 : BitVec 6).toNat = 0 := rfl
        rw [hzero]
        omega

/-- `Append` is a homomorphism (R153 note (e)): two payloads in turn leave what their concatenation leaves, but for the
stale bytes of the buffer. -/
theorem append_append (a b : List Byte) (c : Ctx) :
    ((c.append path p a).append path p b).hashState = (c.append path p (a ++ b)).hashState ∧
    ((c.append path p a).append path p b).validBytes = (c.append path p (a ++ b)).validBytes ∧
    ((c.append path p a).append path p b).cnt = (c.append path p (a ++ b)).cnt ∧
    ((c.append path p a).append path p b).tot = (c.append path p (a ++ b)).tot ∧
    ((c.append path p a).append path p b).phase = (c.append path p (a ++ b)).phase := by
  obtain ⟨a1, a2, a3, a4, a5⟩ := append_spec path p a c
  obtain ⟨b1, b2, b3, b4, b5⟩ := append_spec path p b (c.append path p a)
  obtain ⟨d1, d2, d3, d4, d5⟩ := append_spec path p (a ++ b) c
  have hlen : 64 * ((c.cnt.toNat + a.length) / 64) ≤ (c.validBytes ++ a).length := by
    simp
    omega
  have hk : (c.cnt.toNat + (a ++ b).length) / 64
      = (c.cnt.toNat + a.length) / 64 + ((c.append path p a).cnt.toNat + b.length) / 64 := by
    rw [a3, List.length_append]
    omega
  have hdrop : (c.validBytes ++ a).drop (64 * ((c.cnt.toNat + a.length) / 64)) ++ b
      = (c.validBytes ++ (a ++ b)).drop (64 * ((c.cnt.toNat + a.length) / 64)) := by
    rw [← List.append_assoc, List.drop_append_of_le_length hlen]
  refine ⟨?_, ?_, ?_, ?_, ?_⟩
  · rw [b1, d1, a1, a2, hk, absorbBytes_add, hdrop, ← List.append_assoc, absorbBytes_append _ _ _ _ _ _ hlen]
  · rw [b2, d2, a2, hk, hdrop, List.drop_drop, Nat.mul_add]
  · apply BitVec.eq_of_toNat_eq
    rw [b3, d3, a3, List.length_append]
    omega
  · rw [b4, d4, a4, List.length_append, BitVec.ofNat_add, BitVec.add_assoc]
  · rw [b5, d5, a5]

/-! ### Finish -/

theorem getD_append_left (l l' : List Byte) (j : Nat) (h : j < l.length) : (l ++ l').getD j 0 = l.getD j 0 := by
  simp [List.getD_eq_getElem?_getD, List.getElem?_append_left h]

theorem getD_append_right (l l' : List Byte) (j : Nat) (h : l.length ≤ j) :
    (l ++ l').getD j 0 = l'.getD (j - l.length) 0 := by
  simp [List.getD_eq_getElem?_getD, List.getElem?_append_right h]

theorem getD_zeros (n j : Nat) : (zeros n).getD j 0 = 0 := by
  by_cases h : j < n <;> simp [zeros, List.getD_eq_getElem?_getD, h]

theorem getD_validBytes (c : Ctx) (j : Nat) (h : j < c.cnt.toNat) :
    c.validBytes.getD j 0 = c.buf[j]'(by have := cnt_lt c; omega) := by
  rw [List.getD_eq_getElem _ _ (by simpa using h), validBytes_getElem _ _ h]

/-- The bit length as it is computed and as it is stated (R155, R165(b)). -/
theorem shiftLeft_three_toNat (v : BitVec 64) : (v <<< 3).toNat = (v.toNat * 8) % 2 ^ 64 := by
  rw [BitVec.toNat_shiftLeft, Nat.shiftLeft_eq]

/-- The final block is the padded tail (R154 note (b)). -/
theorem finalBlock_spec (c : Ctx) (h : c.cnt.toNat ≤ 55) :
    c.finalBlock = blockOfBytes (padTail c.validBytes c.tot.toNat) := by
  apply Vector.ext
  intro j hj
  simp only [Ctx.finalBlock, writeBuf_getElem, shiftLeft_three_toNat, leBytes_length, zeros_length,
    List.length_singleton, blockOfBytes_getElem, padTail, validBytes_length, if_pos h]
  by_cases h1 : 56 ≤ j
  · rw [if_pos (by omega), getD_append_right _ _ _ (by simp; omega)]
    congr 1
    simp
    omega
  rw [if_neg (by omega), getD_append_left _ _ _ (by simp; omega)]
  by_cases h2 : c.cnt.toNat + 1 ≤ j
  · rw [if_pos (by omega), getD_append_right _ _ _ (by simp; omega), getD_zeros, getD_zeros]
  rw [if_neg (by omega), getD_append_left _ _ _ (by simp; omega)]
  by_cases h3 : c.cnt.toNat ≤ j
  · rw [if_pos (by omega), getD_append_right _ _ _ (by simp; omega), validBytes_length]
  rw [if_neg (by omega), getD_append_left _ _ _ (by simp; omega), getD_validBytes _ _ (by omega)]

/-- A buffer padded with zeros to its end (R154 note (a)). -/
theorem writeBuf_zeros (c : Ctx) :
    writeBuf c.buf c.cnt.toNat (zeros (64 - c.cnt.toNat))
      = blockOfBytes (c.validBytes ++ zeros (64 - c.cnt.toNat)) := by
  apply Vector.ext
  intro j hj
  simp only [writeBuf_getElem, zeros_length, blockOfBytes_getElem]
  by_cases h : c.cnt.toNat ≤ j
  · rw [if_pos (by omega), getD_append_right _ _ _ (by simpa using h), getD_zeros, getD_zeros]
  · rw [if_neg (by omega), getD_append_left _ _ _ (by simp; omega), getD_validBytes _ _ (by omega)]

/-- One padded block goes through `P` at once. -/
theorem squeeze_one (s : Block) (q : List Byte) (h : q.length = 64) :
    squeeze path p s q = permP path p (xorBytes s (blockOfBytes q)) := by
  simp only [squeeze, h]
  rw [show 64 / 64 - 1 = 0 from rfl, absorbBytes, Nat.mul_zero, List.drop_zero]

/-- Of two padded blocks the first is absorbed. -/
theorem squeeze_two (s : Block) (q r : List Byte) (hq : q.length = 64) (hr : r.length = 64) :
    squeeze path p s (q ++ r)
      = permP path p (xorBytes (absorbState path p s (blockOfBytes q)) (blockOfBytes r)) := by
  simp only [squeeze, List.length_append, hq, hr]
  rw [show (64 + 64) / 64 - 1 = 1 from rfl, Nat.mul_one, List.drop_left' hq, absorbBytes, absorbBytes,
    List.take_left' hq]

/-- The first branch of `Finish` leaves the total alone (R154). -/
@[simp] theorem spill_tot (c : Ctx) : (c.spill path p).tot = c.tot := by
  simp only [Ctx.spill]
  by_cases h : c.cnt.toNat > 55
  · rw [if_pos h]
    simp only [absorb_tot]
  · rw [if_neg h]

/-- After the first branch of `Finish` the marker and the length field fit (R154). -/
theorem spill_cnt_le (c : Ctx) : (c.spill path p).cnt.toNat ≤ 55 := by
  simp only [Ctx.spill]
  by_cases h : c.cnt.toNat > 55
  · rw [if_pos h]
    simp
  · rw [if_neg h]
    omega

/-- The padded end of a message is one or two blocks (R154). -/
theorem padTail_length (tail : List Byte) (n : Nat) (h : tail.length < 64) :
    (padTail tail n).length = 64 * (if tail.length ≤ 55 then 1 else 2) := by
  by_cases h1 : tail.length ≤ 55
  · rw [padTail, if_pos h1, if_pos h1]
    simp
    omega
  · rw [padTail, if_neg h1, if_neg h1]
    simp
    omega

/-- Only the total modulo 2^64 reaches the padding (R155). -/
theorem padTail_mod (tail : List Byte) (n : Nat) : padTail tail (n % 2 ^ 64) = padTail tail n := by
  unfold padTail
  rw [show (n % 2 ^ 64 * 8) % 2 ^ 64 = (n * 8) % 2 ^ 64 by omega]

/-- Complete blocks in front are absorbed first (R150, R154). -/
theorem squeeze_append (s : Block) (q r : List Byte) (k : Nat) (hq : q.length = 64 * k) (hr : 64 ≤ r.length) :
    squeeze path p s (q ++ r) = squeeze path p (absorbBytes path p k q s) r := by
  have e1 : (q ++ r).length / 64 - 1 = k + (r.length / 64 - 1) := by
    rw [List.length_append, hq]
    omega
  have hd : (q ++ r).drop (64 * k) = r := by
    rw [← hq]
    simp
  rw [squeeze, squeeze]
  simp only [e1]
  rw [absorbBytes_add, absorbBytes_append _ _ _ _ _ _ (by omega), hd, Nat.mul_add, ← List.drop_drop, hd]

/-- What `Finish` returns (R154), on the message bytes the context holds. -/
theorem finish_spec (c : Ctx) :
    c.finish path p = squeeze path p c.hashState (padTail c.validBytes c.tot.toNat) := by
  have hn := cnt_lt c
  by_cases h : c.cnt.toNat ≤ 55
  · have hs : c.spill path p = c := by
      simp only [Ctx.spill]
      rw [if_neg (by omega)]
    simp only [Ctx.finish, hs, finalBlock_spec c h]
    rw [squeeze_one]
    rw [padTail, validBytes_length, if_pos h]
    simp
    omega
  · have hs : (c.spill path p).hashState
        = absorbState path p c.hashState (blockOfBytes (c.validBytes ++ zeros (64 - c.cnt.toNat))) ∧
        (c.spill path p).cnt = 0 ∧ (c.spill path p).tot = c.tot := by
      simp only [Ctx.spill]
      rw [if_pos (by omega), writeBuf_zeros]
      exact ⟨by simp only [absorb_hashState], rfl, by simp only [absorb_tot]⟩
    obtain ⟨h1, h2, h3⟩ := hs
    have hpad : padTail c.validBytes c.tot.toNat
        = (c.validBytes ++ zeros (64 - c.cnt.toNat)) ++ padTail [] c.tot.toNat := by
      rw [padTail, padTail, validBytes_length, if_neg h, if_pos (by simp)]
      simp only [List.append_assoc, List.nil_append, List.length_nil, Nat.sub_zero]
    rw [hpad, squeeze_two]
    · simp only [Ctx.finish]
      rw [finalBlock_spec _ (by rw [h2]; exact Nat.zero_le _), validBytes_of_cnt_zero _ h2, h1, h3]
    · simp
      omega
    · simp [padTail]

/-! ### The buffer's bytes after `Append` -/

/-- The buffer after `Append`, before it is known whether the top-up filled it (R153). -/
theorem append_buf (pay : List Byte) (c : Ctx) :
    (c.append path p pay).buf =
      let off := topUpCount c.cnt.toNat pay.length
      let d := ({ c with tot := c.tot + BitVec.ofNat 64 pay.length } : Ctx).topUp path p (readPay pay 0 off)
      let rest := pay.drop off
      writeBuf d.buf d.cnt.toNat (readPay rest (64 * (rest.length / 64)) (rest.length - 64 * (rest.length / 64))) := by
  simp only [Ctx.append, storeLeftover_buf, absorbDirect_buf, absorbDirect_cnt]

/-- A payload that fills no block is written behind the bytes held (R23, R153). -/
theorem append_buf_short (pay : List Byte) (c : Ctx) (h : c.cnt.toNat + pay.length < 64) :
    (c.append path p pay).buf = writeBuf c.buf c.cnt.toNat pay := by
  rw [append_buf]
  simp only
  rw [topUp_short _ _ _ _ (by simp [topUpCount]; split <;> omega)]
  by_cases h0 : c.cnt.toNat = 0
  · simp [topUpCount, h0, readPay]
    rw [show 64 * (pay.length / 64) = 0 by omega]
    simp
  · have : topUpCount c.cnt.toNat pay.length = pay.length := by
      rw [topUpCount, if_neg h0]
      omega
    simp [this, readPay]

/-- A payload of whole blocks into an empty buffer does not touch the buffer (R23, R153). -/
theorem append_buf_blocks (pay : List Byte) (c : Ctx) (h : c.cnt = 0) (hm : pay.length % 64 = 0) :
    (c.append path p pay).buf = c.buf := by
  rw [append_buf]
  simp only
  rw [topUp_short _ _ _ _ (by simp [topUpCount, h])]
  simp only [h, topUpCount, readPay]
  simp only [BitVec.toNat_zero, BitVec.ofNat_eq_ofNat, if_true, List.drop_zero]
  rw [show 64 * (pay.length / 64) = pay.length by omega]
  simp

/-- A payload into an empty buffer writes nothing but its leftover, at the start (R153). -/
theorem append_buf_empty (pay : List Byte) (c : Ctx) (h : c.cnt = 0) :
    (c.append path p pay).buf = writeBuf c.buf 0 (pay.drop (64 * (pay.length / 64))) := by
  rw [append_buf]
  simp only
  rw [topUp_short _ _ _ _ (by simp [topUpCount, h])]
  simp only [h, topUpCount, readPay, BitVec.toNat_zero, BitVec.ofNat_eq_ofNat, if_true, List.drop_zero, List.take_zero,
    List.length_nil, Nat.add_zero, writeBuf_nil]
  rw [List.take_of_length_le (by simp)]

/-- A payload that fills a buffer that holds bytes: it is topped up, keeps those bytes when it is absorbed, and the
leftover goes to its start (R153 notes (a), (b)). -/
theorem append_buf_full (pay : List Byte) (c : Ctx) (h0 : 0 < c.cnt.toNat) (h : 64 ≤ c.cnt.toNat + pay.length) :
    (c.append path p pay).buf =
      writeBuf (writeBuf c.buf c.cnt.toNat (pay.take (64 - c.cnt.toNat))) 0
        (pay.drop (pay.length - (c.cnt.toNat + pay.length) % 64)) := by
  have hn := cnt_lt c
  have hoff : topUpCount c.cnt.toNat pay.length = 64 - c.cnt.toNat := by
    rw [topUpCount, if_neg (by omega)]
    omega
  rw [append_buf]
  simp only [hoff, readPay, List.drop_zero]
  rw [topUp_full _ _ _ _ (by simp; omega)]
  simp only [List.length_drop, BitVec.toNat_zero, BitVec.ofNat_eq_ofNat, List.drop_drop]
  have hstart : 64 - c.cnt.toNat + 64 * ((pay.length - (64 - c.cnt.toNat)) / 64)
      = pay.length - (c.cnt.toNat + pay.length) % 64 := by omega
  rw [hstart, List.take_of_length_le (l := pay.drop _) (by rw [List.length_drop]; omega)]

end Sys2Proof.Machine
end

