-- ==== Sys2Proof/Laws/Effects.lean ====
section
/-! SUPPORT. Every command in one shape: its operand form and its effect, and what an effect can be. Claims over all
commands cite these and unfold no meaning. -/

namespace Sys2Proof.Machine

/-- The operand form of a command. -/
def formOf : Instr → OperandForm
  | .hash _ _ _ => formHash
  | .create _ _ _ => formCreate
  | .update _ _ _ => formUpdate
  | .finalize _ _ _ => formFinalize
  | .destroy _ _ _ => formDestroy
  | .permute _ _ _ => formPermute
  | .hasaccel _ _ _ => formHasaccel
  | .haswide _ _ _ => formHaswide
  | .parallel _ _ _ => formParallel
  | .setpath _ _ _ => formSetpath
  | .dbgrd _ _ _ => formDbgrd

/-- The effect of a command whose operands are legal. -/
def effectOf : Instr → State → Effect
  | .hash _ _ pay, s => .ok ({ s with scr := s.scr.clear }, (hashDigest s pay).toList)
  | .create _ _ _, s =>
    match s.smallestFree with
    | none => .error .noContext
    | some h => .ok (s.setSlot h { Ctx.zero.init s.params with phase := .active }, [BitVec.ofNat 8 h])
  | .update hnd _ pay, s =>
    match s.activeSlot hnd with
    | .error e => .error e
    | .ok c => .ok (s.setSlot hnd.toNat (c.append s.active s.params pay), [])
  | .finalize hnd _ _, s =>
    match s.activeSlot hnd with
    | .error e => .error e
    | .ok c =>
      .ok (s.setSlot hnd.toNat { c.clear with phase := .finalized }, (c.finish s.active s.params).toList)
  | .destroy hnd _ _, s =>
    match s.takenSlot hnd with
    | .error e => .error e
    | .ok c => .ok (s.setSlot hnd.toNat { c.clear with phase := .free }, [])
  | .permute _ _ pay, s => .ok (s, (permP s.active s.params (blockOfBytes (readPay pay 0 64))).toList)
  | .hasaccel _ _ _, s => .ok (s, [bitByte (s.cap.getLsbD 0)])
  | .haswide _ _ _, s => .ok (s, [bitByte (s.cap.getLsbD 1)])
  | .parallel _ _ _, s => .ok (s, leBytes 4 s.parh.toNat)
  | .setpath _ arg _, s =>
    match forceOfArg arg with
    | none => .ok (s, pathStatus s)
    | some m =>
      if m = .accel ∧ s.params.hwAccelPresent = false then .error .unsupported
      else
        let t := { s with force := m, active := selectPath m s.params.hwAccelPresent }
        .ok (t, pathStatus t)
  | .dbgrd hnd _ _, s => dbgTarget s hnd

/-- `exec` is the frame of `commandState` around the effect, for every command but a gated `DBGRD`. -/
theorem exec_effect (i : Instr) (s : State) (h : i.opcode ≠ 0x0B ∨ s.params.testHookEn = true) :
    exec i s = .next (commandState (formOf i) i.hnd i.arg i.pay s (effectOf i s)) := by
  cases i <;> try rfl
  rename_i a b c
  have : s.params.testHookEn = true := by
    rcases h with h | h
    · exact absurd rfl h
    · exact h
  show execDbgrd a b c s = _
  rw [execDbgrd, this]
  rfl

/-- `exec` of a command with legal operands whose own checks pass. -/
theorem exec_effect_ok {i : Instr} {s t : State} {out : List Byte} (h : i.opcode ≠ 0x0B ∨ s.params.testHookEn = true)
    (hf : operandError (formOf i) i.hnd i.arg i.pay.length = none) (he : effectOf i s = .ok (t, out)) :
    exec i s = .next (respond out t) := by
  rw [exec_effect i s h, he, commandState_ok hf]

/-- `exec` of a command with legal operands one of whose own checks fails. -/
theorem exec_effect_error {i : Instr} {s : State} {e : Err} (h : i.opcode ≠ 0x0B ∨ s.params.testHookEn = true)
    (hf : operandError (formOf i) i.hnd i.arg i.pay.length = none) (he : effectOf i s = .error e) :
    exec i s = .next (raise e s) := by
  rw [exec_effect i s h, he, commandState_error hf]

/-- Every command completes, with an error from the state it found or with what its effect says. -/
theorem exec_cases (i : Instr) (s : State) :
    ∃ t, exec i s = .next t ∧
      ((∃ e, t = raise e s) ∨ ∃ u out, t = respond out u ∧ effectOf i s = .ok (u, out)) := by
  by_cases h : i.opcode ≠ 0x0B ∨ s.params.testHookEn = true
  · refine ⟨_, exec_effect i s h, ?_⟩
    rcases commandState_cases (formOf i) i.hnd i.arg i.pay s (effectOf i s) with ⟨e, he⟩ | ⟨t, out, _, hx, he⟩
    · exact .inl ⟨e, he⟩
    · exact .inr ⟨t, out, he, hx⟩
  · push Not at h
    cases i <;> simp [Instr.opcode] at h
    refine ⟨raise .illegal s, ?_, .inl ⟨_, rfl⟩⟩
    show execDbgrd _ _ _ s = _
    rw [execDbgrd, h]
    rfl

@[simp] theorem ctxDump_length (c : Ctx) : (ctxDump c).length = 138 := by simp [ctxDump]

@[simp] theorem globalDump_length (s : State) : (globalDump s).length = 16 := by simp [globalDump]

/-- What an effect leaves alone and how long its response is: one case for each command. -/
theorem effectOf_ok {i : Instr} {s u : State} {out : List Byte} (h : effectOf i s = .ok (u, out)) :
    u.input = s.input ∧ u.output = s.output ∧ u.params = s.params ∧ u.slots.length = s.slots.length ∧
      out.length = okLength i ∧ (i.opcode ≠ 0x0A → u.force = s.force ∧ u.active = s.active) := by
  cases i <;> simp only [effectOf] at h
  case hash => cases h; simp [okLength]
  case create => split at h <;> cases h; simp [okLength]
  case update => split at h <;> cases h; simp [okLength]
  case finalize => split at h <;> cases h; simp [okLength]
  case destroy => split at h <;> cases h; simp [okLength]
  case permute => cases h; simp [okLength]
  case hasaccel => cases h; simp [okLength]
  case haswide => cases h; simp [okLength]
  case parallel => cases h; simp [okLength]
  case setpath =>
    split at h
    · cases h; simp [okLength, pathStatus]
    · split at h <;> cases h
      simp [okLength, pathStatus, Instr.opcode]
  case dbgrd =>
    unfold dbgTarget at h
    split at h
    · cases h; rename_i h1; simp [okLength, h1]
    · rename_i h1
      split at h
      · cases h; rw [okLength, if_neg h1, ctxDump_length]; simp
      · split at h <;> cases h
        rw [okLength, if_neg h1, ctxDump_length]; simp

end Sys2Proof.Machine
end

