-- ==== Sys2Proof/Laws/PerInstr.lean ====
section
/-! SUPPORT. A statement about every command as syntax, one lemma per constructor: the length of its packet (R90). -/

namespace Sys2Proof.Laws.EncodedLength

/-- The packet of a command has 12 header bytes and its payload (R90, R92). -/
def Statement (i : Instr) : Prop := (encode i).length = headerBytes + i.pay.length

/-- The common shape of a packet. -/
theorem packet_length (a b c d : Byte) (pay : List Byte) :
    ([a, b, c, d] ++ Machine.leBytes 8 pay.length ++ pay).length = headerBytes + pay.length := by
  simp only [List.length_append, List.length_cons, List.length_nil, Machine.leBytes_length, headerBytes]

theorem hash (hnd arg : Byte) (pay : List Byte) : Statement (.hash hnd arg pay) :=
  packet_length _ _ _ _ pay

theorem create (hnd arg : Byte) (pay : List Byte) : Statement (.create hnd arg pay) :=
  packet_length _ _ _ _ pay

theorem update (hnd arg : Byte) (pay : List Byte) : Statement (.update hnd arg pay) :=
  packet_length _ _ _ _ pay

theorem finalize (hnd arg : Byte) (pay : List Byte) : Statement (.finalize hnd arg pay) :=
  packet_length _ _ _ _ pay

theorem destroy (hnd arg : Byte) (pay : List Byte) : Statement (.destroy hnd arg pay) :=
  packet_length _ _ _ _ pay

theorem permute (hnd arg : Byte) (pay : List Byte) : Statement (.permute hnd arg pay) :=
  packet_length _ _ _ _ pay

theorem hasaccel (hnd arg : Byte) (pay : List Byte) : Statement (.hasaccel hnd arg pay) :=
  packet_length _ _ _ _ pay

theorem haswide (hnd arg : Byte) (pay : List Byte) : Statement (.haswide hnd arg pay) :=
  packet_length _ _ _ _ pay

theorem parallel (hnd arg : Byte) (pay : List Byte) : Statement (.parallel hnd arg pay) :=
  packet_length _ _ _ _ pay

theorem setpath (hnd arg : Byte) (pay : List Byte) : Statement (.setpath hnd arg pay) :=
  packet_length _ _ _ _ pay

theorem dbgrd (hnd arg : Byte) (pay : List Byte) : Statement (.dbgrd hnd arg pay) :=
  packet_length _ _ _ _ pay

end Sys2Proof.Laws.EncodedLength
end

