-- ==== Sys2Proof/Laws/Permutation.lean ====
section
/-! SUPPORT. One byte or one lane of each step of the Permutation Core, so that no later proof unfolds a step. -/

namespace Sys2Proof.Machine

variable (path : Path) (p : Params)

@[simp] theorem shiftRows_getElem (a : Lane) (j : Nat) (h : j < 16) :
    (shiftRows a)[j] = a[j % 4 + 4 * ((j / 4 + j % 4) % 4)]'(by omega) := by
  simp [shiftRows]

@[simp] theorem subBytes_getElem (a : Lane) (j : Nat) (h : j < 16) :
    (subBytes path a)[j] = subByte path a[j] := by
  simp [subBytes]

theorem mixColumns_getElem (a : Lane) (j : Nat) (h : j < 16) :
    (mixColumns a)[j] =
      xtime (a[4 * (j / 4) + j % 4]'(by omega)) ^^^ mul3 (a[4 * (j / 4) + (j + 1) % 4]'(by omega)) ^^^
      a[4 * (j / 4) + (j + 2) % 4]'(by omega) ^^^ a[4 * (j / 4) + (j + 3) % 4]'(by omega) := by
  simp [mixColumns]

/-- The key is added last (R126). -/
@[simp] theorem aesRound_getElem (a k : Lane) (j : Nat) (h : j < 16) :
    (aesRound path a k)[j] = (mixColumns (subBytes path (shiftRows a)))[j] ^^^ k[j] := by
  simp [aesRound]

@[simp] theorem lanesOf_getElem (t : Block) (i : Nat) (h : i < 4) : (lanesOf t)[i] = laneOf t ⟨i, h⟩ := by
  simp [lanesOf]

theorem rotateLanes_getElem (x : Vector Lane 4) (i : Nat) (h : i < 4) :
    (rotateLanes p x)[i] = x[(i + rotStepNat p.rotStep) % 4]'(by omega) := by
  simp [rotateLanes]

/-- A lane after an even round: its own AES step with the constant of its position (R127, R129). -/
theorem roundStep_even (r : Nat) (x : Vector Lane 4) (hr : r % 2 = 0) (i : Nat) (h : i < 4) :
    (roundStep path p r x)[i] = aesRound path x[i] (roundConst p r ⟨i, h⟩) := by
  simp [roundStep, hr]

/-- A lane after an odd round: the AES step of the lane that the rotation brings there (R128, R129). -/
theorem roundStep_odd (r : Nat) (x : Vector Lane 4) (hr : r % 2 = 1) (i : Nat) (h : i < 4) :
    (roundStep path p r x)[i] =
      aesRound path (x[(i + rotStepNat p.rotStep) % 4]'(by omega))
        (roundConst p r ⟨(i + rotStepNat p.rotStep) % 4, by omega⟩) := by
  simp [roundStep, hr, rotateLanes_getElem]

@[simp] theorem foldHalves_getElem (f : Block) (j : Nat) (h : j < 32) :
    (foldHalves f)[j] = f[j] ^^^ f[32 + j] := by
  simp [foldHalves]

/-- One byte of the output of `P`: the two post-round bytes and the two input bytes (R130). -/
theorem permP_getElem (t : Block) (j : Nat) (h : j < 32) :
    (permP path p t)[j] =
      ((blockOfLanes (rounds path p 8 (lanesOf t)))[j] ^^^ t[j]) ^^^
      ((blockOfLanes (rounds path p 8 (lanesOf t)))[32 + j] ^^^ t[32 + j]) := by
  rw [permP, foldHalves_getElem, xorBytes_getElem, xorBytes_getElem]

/-- Lanes 0 and 1 after `Absorb` are the permutation output (R151). -/
theorem absorbState_low (s b : Block) (j : Nat) (h : j < 32) :
    (absorbState path p s b)[j] = (permP path p (xorBytes s b))[j] := by
  simp [absorbState, h]

/-- Lanes 2 and 3 after `Absorb` are the XORed ones, or the old ones without the write-back (R151). -/
theorem absorbState_high (s b : Block) (j : Nat) (h : j < 64) (h' : 32 ≤ j) :
    (absorbState path p s b)[j] = if p.absorbWriteback then s[j] ^^^ b[j] else s[j] := by
  have hj : ¬ j < 32 := by omega
  by_cases hw : p.absorbWriteback <;> simp [absorbState, hj, hw]

/-! ### The constants a lane meets -/

theorem lanePosition_val (p : Params) (i r : Nat) :
    (lanePosition p i r).val = (i + (4 - rotStepNat p.rotStep) * (r / 2)) % 4 := by
  have key : ∀ d : RotStep, (match d with | .one => 3 | .three => 1) = 4 - rotStepNat d := by
    intro d
    cases d <;> rfl
  exact congrArg (fun k => (i + k * (r / 2)) % 4) (key p.rotStep)

theorem laneConstant_eq (p : Params) (i r : Nat) : laneConstant p i r = roundConst p r (lanePosition p i r) := rfl

end Sys2Proof.Machine
end

