-- ==== Sys2Proof/Tests/Slice0.lean ====
section
/-!
SUPPORT. Tests of the writer, on values the spec gives (95_test_vectors.md, 30_encoding.md): words written out from the
encoding, ill-formed terms, one step at a time under the test configuration K0; and for every obligation that has
hypotheses a concrete state and operands that meet all of them together.
-/

namespace Sys2Proof.Tests

open Sys2Proof Sys2Proof.Machine

/-! ## Helpers -/

/-- The `n` bytes of a number, most significant first, as the vectors print byte strings. -/
def hex (n v : Nat) : List Byte := (leBytes n v).reverse

/-- A lane printed as 32 hexadecimal digits. -/
def lane (v : Nat) : Lane := Vector.ofFn fun i => (hex 16 v).getD i.val 0

/-- The message `msg(n)` of the vectors. -/
def msg (n : Nat) : List Byte := (List.range n).map fun i => BitVec.ofNat 8 (3 * i + 1)

/-- The synthetic constants T0 with the capabilities of the test configuration K0. -/
def t0 : Params where
  iv := Vector.ofFn fun i => Vector.ofFn fun j => BitVec.ofNat 8 (16 * i.val + j.val)
  rc := Vector.ofFn fun k => Vector.ofFn fun j => BitVec.ofNat 8 (0x80 + 16 * k.val + j.val)
  laneOffset := #v[0, 1, 2, 3]
  rotStep := .one
  absorbWriteback := true
  hwAccelPresent := true
  wideVectorPresent := false
  parHint := 8
  testHookEn := true

/-- The reset state of the test configuration K0. -/
def k0 : State := State.resetWith t0 2

/-- K0 without the accelerated datapath. -/
def k0Portable : State := State.resetWith { t0 with hwAccelPresent := false } 2

/-- K0 without the test hook. -/
def k0Hookless : State := State.resetWith { t0 with testHookEn := false } 2

/-- An `ACTIVE` context as `CREATE` leaves it (V50). -/
def fresh : Ctx := { Ctx.zero.init t0 with phase := .active }

/-- An `ACTIVE` context that holds the bytes of "abc" (line 5 of PRG1). -/
def held : Ctx :=
  { fresh with buf := writeBuf (zeroBytes 64) 0 [0x61, 0x62, 0x63], cnt := 3, tot := 3 }

/-- A `FINALIZED` context (V54). -/
def spent : Ctx := { Ctx.zero with phase := .finalized }

/-- K0 with slot 0 `ACTIVE` and slot 1 `FINALIZED`. -/
def k1 : State := { k0 with slots := [held, spent] }

/-- K0 with both slots `ACTIVE`. -/
def k2 : State := { k0 with slots := [fresh, held] }

/-- K0 with slot 0 `ACTIVE` and slot 1 `FREE`. -/
def k3 : State := { k0 with slots := [held, Ctx.zero] }

/-- The state after a step that has one; another outcome would give the state itself, and no test expects that. -/
def after (r : Result) (s : State) : State :=
  match r with
  | .next t => t
  | .fault _ => s
  | .refused _ => s

/-- The response bytes of one step on one packet. -/
def answer (s : State) (packet : List Byte) : List Byte :=
  let start := { s with input := packet, output := [] }
  (after (step start) start).outputBytes

/-! ## Decoding: packets and table words written out from rules R90, R91 and R95 -/

theorem test_decode_hash : decodeBytes (hex 15 0x010000000300000000000000616263) =
    .command (.hash 0 0 [0x61, 0x62, 0x63]) [] := by decide
theorem test_decode_create : decodeTableWord 32 0x00000002 = some (.create 0 0 []) := by decide
theorem test_decode_update : decodeTableWord 120 0x636261000000000000000300000103 =
    some (.update 1 0 [0x61, 0x62, 0x63]) := by decide
theorem test_decode_finalize : decodeBytes (hex 12 0x040700000000000000000000) =
    .command (.finalize 7 0 []) [] := by decide
theorem test_decode_destroy : decodeTableWord 32 0x0000FD05 = some (.destroy 0xFD 0 []) := by decide
theorem test_decode_permute : decodeBytes (hex 12 0x060000004000000000000000 ++ zeros 64) =
    .command (.permute 0 0 (zeros 64)) [] := by decide
theorem test_decode_hasaccel : decodeTableWord 32 0x00000007 = some (.hasaccel 0 0 []) := by decide
theorem test_decode_haswide : decodeTableWord 32 0x00000008 = some (.haswide 0 0 []) := by decide
theorem test_decode_parallel : decodeTableWord 32 0x00000009 = some (.parallel 0 0 []) := by decide
theorem test_decode_setpath : decodeTableWord 32 0x0003000A = some (.setpath 0 3 []) := by decide
theorem test_decode_dbgrd : decodeBytes (hex 12 0x0bff00000000000000000000 ++ [0x01]) =
    .command (.dbgrd 0xFF 0 []) [0x01] := by decide

/-- V69: opcode 0x00. -/
theorem test_decode_opcode_zero : decodeBytes (hex 12 0) = .rejected (.unknownOpcode 0) [] := by decide
/-- V70: opcode 0x0c; its two payload bytes are consumed. -/
theorem test_decode_opcode_above : decodeBytes (hex 14 0x0c0000000200000000000000aabb) =
    .rejected (.unknownOpcode 0x0c) [] := by decide
/-- V71: `RSV = 1`. -/
theorem test_decode_reserved : decodeBytes (hex 12 0x020000010000000000000000) = .rejected (.reservedByte 1) [] := by
  decide
/-- X8: a stream that ends inside a packet is no command. -/
theorem test_decode_incomplete : decodeBytes (hex 14 0x0100000003000000000000006162) = .incomplete := by decide

/-! ## Well-formedness: every check refuses an ill-formed term -/

theorem test_wellFormed_accepts : (Instr.update 1 0 [0x61]).wellFormed := by decide
theorem test_wellFormed_setpath : (Instr.setpath 0 3 []).wellFormed := by decide
theorem test_illFormed_hnd : ¬ (Instr.create 1 0 []).wellFormed := by decide
theorem test_illFormed_arg : ¬ (Instr.finalize 0 1 []).wellFormed := by decide
theorem test_illFormed_mode : ¬ (Instr.setpath 0 4 []).wellFormed := by decide
theorem test_illFormed_len_zero : ¬ (Instr.destroy 0 0 [0x61]).wellFormed := by decide
theorem test_illFormed_len_block : ¬ (Instr.permute 0 0 (zeros 63)).wellFormed := by decide
/-- A payload of 2^64 bytes, which no `LEN` announces. -/
theorem test_illFormed_encodable : ¬ (Instr.hash 0 0 (List.replicate (2 ^ 64) 0)).wellFormed := by
  rintro ⟨h, -⟩
  simp only [Instr.encodable, Instr.pay, List.length_replicate, lt_self_iff_false] at h

/-! ## The Permutation Core -/

/-- V2, on both datapaths. -/
theorem test_aesr_accel : aesRound .accel (lane 0x00102030405060708090a0b0c0d0e0f0)
    (lane 0xd6aa74fdd2af72fadaa678f1d6ab76fe) = lane 0x89d810e8855ace682d1843d8cb128fe4 := by decide +kernel
/-- V5. -/
theorem test_aesr_portable : aesRound .portable (lane 0x000102030405060708090a0b0c0d0e0f) (zeroBytes 16) =
    lane 0x6a6a5c452c6d3351b0d95d61279c215c := by decide +kernel
/-- V12, as `PERMUTE`. -/
theorem test_permute : answer k0 (hex 12 0x060000004000000000000000 ++ zeros 64) =
    hex 34 0x00207ea0a9d0b76649051721565ea3697d53582fa47ed18034410f3b117d2af4f440 := by decide +kernel
/-- V76: 63 payload bytes. -/
theorem test_permute_short : answer k0 (hex 12 0x060000003f00000000000000 ++ zeros 63) = [0x02, 0x00] := by decide

/-! ## The hashing commands -/

/-- V85. -/
theorem test_hash_abc : answer k0 (hex 15 0x010000000300000000000000616263) =
    hex 34 0x00203ba2a369cb1e76be3cd8a63a140ad4f2c6ed2eb888139cede541b9b65abfed34 := by decide +kernel
/-- V60. -/
theorem test_create_first : answer k0 (hex 12 0x020000000000000000000000) = [0x00, 0x01, 0x00] := by decide +kernel
/-- V65: a `FINALIZED` slot is not free. -/
theorem test_create_full : answer k1 (hex 12 0x020000000000000000000000) = [0x05, 0x00] := by decide +kernel
/-- PRG1 line 5 is the state after "abc" in two chunks; here "bc" joins an "a". -/
theorem test_update_appends :
    (fresh.append .accel t0 [0x61]).append .accel t0 [0x62, 0x63] = held := by decide +kernel
/-- V53: the buffer after a top-up, an absorption and a leftover of 6 bytes, its stale bytes with it. -/
theorem test_update_stale :
    ((fresh.append .accel t0 ((msg 70).take 60)).append .accel t0 ((msg 70).drop 60)).buf.toList =
      hex 16 0xc1c4c7cacdd01316191c1f2225282b2e ++ hex 16 0x3134373a3d404346494c4f5255585b5e ++
      hex 16 0x6164676a6d707376797c7f8285888b8e ++ hex 16 0x9194979a9da0a3a6a9acafb2b5b8bbbe := by decide +kernel
/-- V63: an `UPDATE` of a `FINALIZED` slot. -/
theorem test_update_finalized : answer k1 (hex 13 0x03010000010000000000000061) = [0x04, 0x00] := by decide +kernel
/-- PRG1 line 6. -/
theorem test_finalize : answer k1 (hex 12 0x040000000000000000000000) =
    hex 34 0x00203ba2a369cb1e76be3cd8a63a140ad4f2c6ed2eb888139cede541b9b65abfed34 := by decide +kernel
/-- V78: `ERR_BAD_LEN` outranks `ERR_BAD_HANDLE`. -/
theorem test_finalize_order : answer k0 (hex 17 0x04c8000005000000000000000000000000) = [0x02, 0x00] := by decide
/-- PRG3 line 9. -/
theorem test_destroy_finalized : after (exec (.destroy 1 0 []) k1) k1 = { k3 with output := [.ok []] } := by
  decide +kernel
/-- V67: already destroyed. -/
theorem test_destroy_free : answer k0 (hex 12 0x050000000000000000000000) = [0x03, 0x00] := by decide +kernel

/-! ## Capability queries, path control, test hook -/

/-- V82, V91. -/
theorem test_hasaccel : answer k0 (hex 12 0x070000000000000000000000) = [0x00, 0x01, 0x01] ∧
    answer k0Portable (hex 12 0x070000000000000000000000) = [0x00, 0x01, 0x00] := by decide
/-- V83. -/
theorem test_haswide : answer k0 (hex 12 0x080000000000000000000000) = [0x00, 0x01, 0x00] := by decide
/-- V84. -/
theorem test_parallel : answer k0 (hex 12 0x090000000000000000000000) = hex 6 0x000408000000 := by decide
/-- PRG4 line 2. -/
theorem test_setpath : answer k0 (hex 12 0x0a0001000000000000000000) = hex 4 0x00020100 := by decide
/-- V89. -/
theorem test_setpath_absent : answer k0Portable (hex 12 0x0a0002000000000000000000) = [0x06, 0x00] := by decide
/-- V57. -/
theorem test_dbgrd_global : answer k0 (hex 12 0x0bfe00000000000000000000) =
    hex 18 0x001000000000010000000800000001000000 := by decide +kernel
/-- PRG3 line 4: a `FINALIZED` slot is zero. -/
theorem test_dbgrd_slot : answer k1 (hex 12 0x0b0100000000000000000000) = [0x00, 0x8a] ++ zeros 137 ++ [0x02] := by
  decide +kernel

/-! ## The first instruction after reset -/

/-- A table word placed with `withFetchWord` is what the first step from reset runs. -/
theorem test_first_step : step (State.reset.withFetchWord 32 0x0000FE0B) = exec (.dbgrd 0xFE 0 []) State.reset := rfl

/-! ## Witnesses: the hypotheses of every obligation are met together -/

theorem witness_DecodeOfEncode : (Instr.update 1 0 (msg 3)).encodable ∧ (Instr.hash 9 9 []).encodable := by decide

theorem witness_EncodeOfDecode : decodeBytes (hex 14 0x0301020001000000000000006162) =
    .command (.update 1 2 [0x61]) [0x62] := by decide

theorem witness_DecoderFollowsMaskAndMatch :
    decode ⟨0x0A, 7, 9, 0, [1]⟩ = .ok (.setpath 7 9 [1]) ∧
    (BitVec.ofNat 32 (leNat [0x0A, 7, 9, 0]) &&& 0xFF0000FF#32) = (Instr.setpath 7 9 [1]).opcode.setWidth 32 := by
  decide

theorem witness_StepRunsDecodedCommand :
    decodeBytes ({ k0 with input := hex 13 0x07000000000000000000000055 } : State).input =
      .command (.hasaccel 0 0 []) [0x55] := by decide

/-- Each of the three clauses, at the shortest packet, at 11 bytes, and one byte short of a packet. -/
theorem witness_FramingIsIndependentOfValidity :
    (([] : List Byte).length < 2 ^ 64 ∧ ({ k0 with input := [0xEE, 1, 2, 3] ++ leBytes 8 0 ++ [] ++ [9] } : State).input =
      [0xEE, 1, 2, 3] ++ leBytes 8 ([] : List Byte).length ++ [] ++ [9]) ∧
    ({ k0 with input := zeros 11 } : State).input.length < 12 ∧
    ((3 : Nat) < 2 ^ 64 ∧ ([1, 2] : List Byte).length < 3 ∧
      ({ k0 with input := [1, 0, 0, 0] ++ leBytes 8 3 ++ [1, 2] } : State).input =
        [1, 0, 0, 0] ++ leBytes 8 3 ++ [1, 2]) := by decide

/-- A framed packet for each error of the order, and one that none of the checks stops. -/
theorem witness_StatusFollowsCheckOrder :
    frame (hex 12 0x020000000000000000000000) = some (⟨2, 0, 0, 0, []⟩, []) ∧
    checkOrder k0 ⟨2, 0, 0, 0, []⟩ = none ∧
    checkOrder k0 ⟨2, 0, 0, 1, []⟩ = some .illegal ∧ checkOrder k0 ⟨2, 0, 0, 0, [1]⟩ = some .badLen ∧
    checkOrder k0 ⟨3, 2, 0, 0, []⟩ = some .badHandle ∧ checkOrder k1 ⟨4, 1, 0, 0, []⟩ = some .finalized ∧
    checkOrder k1 ⟨2, 0, 0, 0, []⟩ = some .noContext ∧
    checkOrder k0Portable ⟨10, 0, 2, 0, []⟩ = some .unsupported := by decide +kernel

theorem witness_OneResponsePerPacket :
    frame ({ k0 with input := hex 14 0x0c0000000200000000000000aabb } : State).input =
      some (⟨0x0c, 0, 0, 0, [0xaa, 0xbb]⟩, []) := by decide

theorem witness_ErrorChangesNoState :
    exec (.create 0 0 []) k1 = .next { k1 with output := [.err .noContext] } ∧
    ({ k1 with output := [.err .noContext] } : State).output = k1.output ++ [.err .noContext] := ⟨rfl, rfl⟩

theorem witness_ErrorsAreNotSticky :
    exec (.create 1 0 []) k0 = .next { k0 with output := [.err .illegal] } ∧
    ({ k0 with output := [.err .illegal] } : State).output = k0.output ++ [.err .illegal] ∧
    ∃ u, exec (.create 0 0 []) k0 = .next u := ⟨rfl, rfl, _, rfl⟩

/-- A state that has given no response has the invariant if the rest of it holds. -/
theorem inv_of_silent {s : State} (hs : s.output = [])
    (h : 1 ≤ s.slots.length ∧ s.slots.length ≤ 254 ∧ (∀ c ∈ s.slots, c.Inv) ∧ s.scr = Ctx.zero ∧
      s.active = selectPath s.force s.params.hwAccelPresent ∧
      (s.force = .accel → s.params.hwAccelPresent = true)) : s.Inv := by
  obtain ⟨h1, h2, h3, h4, h5, h6⟩ := h
  exact ⟨h1, h2, h3, h4, h5, h6, by simp [hs]⟩

theorem witness_StepKeepsInvariant :
    ({ k1 with input := hex 12 0x050100000000000000000000 } : State).Inv ∧
    ∃ t, step { k1 with input := hex 12 0x050100000000000000000000 } = .next t := ⟨inv_of_silent rfl (by decide +kernel), _, rfl⟩

theorem witness_ConfigurationNeverChanges :
    ∃ t, step { k0 with input := hex 12 0x020000000000000000000000 } = .next t := ⟨_, rfl⟩

theorem witness_SelectionChangesOnlyBySetpath :
    ∃ t, step { k0 with input := hex 12 0x0a0001000000000000000000 } = .next t ∧
      (t.active ≠ k0.active ∨ t.force ≠ k0.force) := ⟨_, rfl, by decide⟩

theorem witness_SboxTableIsTheFormula : (0x53 : Byte) ≠ 0 := by decide

/-- Two blocks that agree in lanes 0 and 2 and differ in lanes 1 and 3, and two the other way round. -/
theorem witness_OutputLaneDependsOnTwoInputLanes :
    let t : Block := zeroBytes 64
    let u : Block := blockOfBytes (zeros 16 ++ [1] ++ zeros 31 ++ [1] ++ zeros 15)
    let v : Block := blockOfBytes ([1] ++ zeros 31 ++ [1] ++ zeros 31)
    t ≠ u ∧ laneOf t 0 = laneOf u 0 ∧ laneOf t 2 = laneOf u 2 ∧
    t ≠ v ∧ laneOf t 1 = laneOf v 1 ∧ laneOf t 3 = laneOf v 3 := by decide +kernel

/-- The constants T1 and the block of V11. -/
theorem witness_EqualConstantsCancel :
    ({ t0 with rc := Vector.replicate 8 (zeroBytes 16) } : Params).rc = Vector.replicate 8 (zeroBytes 16) ∧
    ∀ (j : Nat) (_ : j < 32),
      (Vector.replicate 64 (0xFF : Byte))[j] = (Vector.replicate 64 (0xFF : Byte))[32 + j] :=
  ⟨rfl, fun _ _ => by simp⟩

theorem witness_PermuteFoldsFeedForward : (zeros 64).length = 64 := by decide

theorem witness_PermuteRespondsP : (zeros 64).length = 64 := by decide

/-- The lowest slot free, and only the highest one free. -/
theorem witness_CreateTakesSmallestFree :
    (k0.slots[0]? = some Ctx.zero ∧ Ctx.zero.phase = .free ∧
      ∀ (j : Nat) (d : Ctx), j < 0 → k0.slots[j]? = some d → d.phase ≠ .free) ∧
    (k3.slots[1]? = some Ctx.zero ∧
      ∀ (j : Nat) (d : Ctx), j < 1 → k3.slots[j]? = some d → d.phase ≠ .free) := by
  refine ⟨⟨rfl, rfl, fun j d hj => absurd hj (by omega)⟩, rfl, ?_⟩
  intro j d hj hd
  obtain rfl : j = 0 := by omega
  obtain rfl : held = d := Option.some.inj hd
  decide

theorem witness_CreateWithoutFreeSlot : ∀ c ∈ k1.slots, c.phase ≠ .free := by decide +kernel

/-- An `ACTIVE` slot that holds bytes, and the highest slot, `ACTIVE`. -/
theorem witness_UpdateAppendsMessageBytes :
    k1.slots[(0 : Byte).toNat]? = some held ∧ held.phase = .active ∧ k2.slots[(1 : Byte).toNat]? = some held :=
  ⟨rfl, rfl, rfl⟩

/-- Each clause at its boundary: 63 bytes held, a top-up to 64 exactly, a block and one byte into an empty buffer, and one
whole block. -/
theorem witness_UpdateKeepsStaleBytes :
    k1.slots[(0 : Byte).toNat]? = some held ∧ held.phase = .active ∧ held.cnt.toNat + (msg 60).length < 64 ∧
    64 ≤ held.cnt.toNat + (msg 61).length ∧
    k2.slots[(0 : Byte).toNat]? = some fresh ∧ fresh.phase = .active ∧ 64 ≤ fresh.cnt.toNat + (msg 65).length ∧
    fresh.cnt = 0 ∧ (msg 64).length % 64 = 0 :=
  ⟨rfl, rfl, by decide, by decide, rfl, rfl, by decide, rfl, by decide⟩

theorem witness_UpdateAbsorbsOneBlock :
    k2.slots[(0 : Byte).toNat]? = some fresh ∧ fresh.phase = .active ∧ fresh.cnt = 0 ∧ (msg 64).length = 64 :=
  ⟨rfl, rfl, rfl, by decide⟩

theorem witness_UpdatesCompose : k1.slots[(0 : Byte).toNat]? = some held ∧ held.phase = .active := ⟨rfl, rfl⟩

theorem witness_FinalizeSqueezesAndClears : k2.slots[(1 : Byte).toNat]? = some held ∧ held.phase = .active :=
  ⟨rfl, rfl⟩

/-- An `ACTIVE` and a `FINALIZED` slot. -/
theorem witness_DestroyFreesSlot :
    k1.slots[(0 : Byte).toNat]? = some held ∧ held.phase ≠ .free ∧
    k1.slots[(1 : Byte).toNat]? = some spent ∧ spent.phase ≠ .free := by decide +kernel

/-- A slot in each of the three phases, with a row of the table for it; a `FREE` slot for `CREATE`; another command. -/
theorem witness_LifecycleTable :
    k1.params.testHookEn = true ∧ (0 : Byte) ≠ 0xFE ∧ (0 : Byte) ≠ 0xFF ∧ (1 : Byte) ≠ 0xFE ∧ (1 : Byte) ≠ 0xFF ∧
    (k1.slots[(0 : Byte).toNat]? = some held ∧
      (.update 0 0 [0x61], .active, none, .active) ∈ lifecycle 0 [0x61] ∧ held.phase = .active) ∧
    (k1.slots[(1 : Byte).toNat]? = some spent ∧
      (.finalize 1 0 [], .finalized, some .finalized, .finalized) ∈ lifecycle 1 [] ∧ spent.phase = .finalized) ∧
    (k3.slots[(1 : Byte).toNat]? = some Ctx.zero ∧
      (.destroy 1 0 [], .free, some .badHandle, .free) ∈ lifecycle 1 [] ∧ Ctx.zero.phase = .free) ∧
    k3.smallestFree = some 1 ∧
    (Instr.hasaccel 0 0 []).opcode.toNat ∉ [2, 3, 4, 5, 11] ∧ ∃ t, exec (.hasaccel 0 0 []) k1 = .next t :=
  ⟨rfl, by decide, by decide, by decide, by decide, ⟨rfl, by decide, rfl⟩, ⟨rfl, by decide, rfl⟩,
    ⟨rfl, by decide, rfl⟩, rfl, by decide, _, rfl⟩

theorem witness_ChunkInvariance : k3.Inv ∧ k3.smallestFree = some 1 := ⟨inv_of_silent rfl (by decide +kernel), rfl⟩

/-- Two totals 2^61 apart. -/
theorem witness_LengthFieldWraps :
    ({ held with tot := BitVec.ofNat 64 (3 + 2 ^ 61) } : Ctx).hashState = held.hashState ∧
    ({ held with tot := BitVec.ofNat 64 (3 + 2 ^ 61) } : Ctx).validBytes = held.validBytes ∧
    ({ held with tot := BitVec.ofNat 64 (3 + 2 ^ 61) } : Ctx).tot.toNat % 2 ^ 61 = held.tot.toNat % 2 ^ 61 :=
  ⟨rfl, rfl, by decide⟩

/-- Two one-block messages that differ in lane 1 only agree outside it, whatever the position read. -/
theorem padMessage_agree {m n : List Byte} {i : Nat} (hm : (padMessage m).length = 64)
    (hn : (padMessage n).length = 64)
    (h : ∀ j : Fin 64, (j.val / 16) % 2 = i → (padMessage m)[j.val]? = (padMessage n)[j.val]?) (j : Nat)
    (hj : (j / 16) % 2 = i) : (padMessage m)[j]? = (padMessage n)[j]? := by
  rcases Nat.lt_or_ge j 64 with hlt | hge
  · exact h ⟨j, hlt⟩ hj
  · rw [List.getElem?_eq_none (by omega), List.getElem?_eq_none (by omega)]

/-- V34 for lane 0 and V33 for lane 1, and initial states that differ in the lanes that do not count. -/
theorem witness_HashLaneSeparation :
    (let n := (msg 20).set 17 0xb4
     let iv := k0.params.iv.set 1 (zeroBytes 16)
     (padMessage (msg 20)).length = (padMessage n).length ∧
     (∀ j : Nat, (j / 16) % 2 = 0 → (padMessage (msg 20))[j]? = (padMessage n)[j]?) ∧
     k0.params.iv[0] = iv[0] ∧ k0.params.iv[2] = iv[2] ∧ msg 20 ≠ n) ∧
    (let iv := k0.params.iv.set 2 (zeroBytes 16)
     (padMessage [0x00]).length = (padMessage [0x01]).length ∧
     (∀ j : Nat, (j / 16) % 2 = 1 → (padMessage [0x00])[j]? = (padMessage [0x01])[j]?) ∧
     k0.params.iv[1] = iv[1] ∧ k0.params.iv[3] = iv[3]) := by
  refine ⟨⟨by decide +kernel, padMessage_agree (by decide +kernel) (by decide +kernel) (by decide +kernel),
    by decide +kernel, by decide +kernel, by decide +kernel⟩, by decide +kernel,
    padMessage_agree (by decide +kernel) (by decide +kernel) (by decide +kernel),
    by decide +kernel, by decide +kernel⟩

theorem witness_SlotCommandsLeaveTheRest :
    Instr.destroy 1 0 [] ∈ [Instr.update 1 0 [], Instr.finalize 1 0 [], Instr.destroy 1 0 []] ∧
    exec (.destroy 1 0 []) k1 = .next { k3 with output := [.ok []] } := ⟨by decide, rfl⟩

/-- Two commands that write their slots, and one that writes beside a dump of the global registers. -/
theorem witness_SlotCommandsCommute :
    (0 : Byte) ≠ 1 ∧ (0 : Byte) ≠ 0xFE ∧
    Instr.finalize 0 0 [] ∈
      [Instr.update 0 0 [], Instr.finalize 0 0 [], Instr.destroy 0 0 [], Instr.dbgrd 0 0 []] ∧
    Instr.update 1 0 [0x61] ∈
      [Instr.update 1 0 [0x61], Instr.finalize 1 0 [0x61], Instr.destroy 1 0 [0x61], Instr.dbgrd 1 0 [0x61]] ∧
    Instr.dbgrd 0xFE 0 [] ∈
      [Instr.update 0xFE 0 [], Instr.finalize 0xFE 0 [], Instr.destroy 0xFE 0 [], Instr.dbgrd 0xFE 0 []] := by
  decide

theorem witness_QueriesChangeNoState :
    ∀ i ∈ [Instr.dbgrd 5 0 [], Instr.hasaccel 5 0 [], Instr.haswide 5 0 [], Instr.parallel 5 0 [],
      Instr.setpath 5 3 []], i ∈ [Instr.dbgrd 5 0 [], Instr.hasaccel 5 0 [], Instr.haswide 5 0 [],
      Instr.parallel 5 0 [], Instr.setpath 5 3 []] := fun _ h => h

theorem witness_HashAndPermuteTouchNoSlot : k1.scr = Ctx.zero := rfl

theorem witness_ControlCommandsIgnoreContexts :
    7 ≤ (Instr.hasaccel 0 0 []).opcode.toNat ∧ (∃ t, exec (.hasaccel 0 0 []) k1 = .next t) ∧
    (Instr.hasaccel 0 0 []).opcode ≠ 0x0B := ⟨by decide, ⟨_, rfl⟩, by decide⟩

/-- At the highest opcode the statement speaks of. -/
theorem witness_ResultsIndependentOfSelection :
    (Instr.parallel 0 0 []).opcode.toNat < 0x0A ∧ ∃ t, exec (.parallel 0 0 []) k1 = .next t := ⟨by decide, _, rfl⟩

theorem witness_SetpathSetsSelection : k0.params.hwAccelPresent = true := rfl

theorem witness_SetpathRefusesAbsentPath : k0Portable.params.hwAccelPresent = false := rfl

/-- The scratch context, the lowest and the highest slot. -/
theorem witness_DbgrdDumpsContext :
    k1.params.testHookEn = true ∧
    ((0xFF : Byte) = 0xFF ∧ k1.scr = k1.scr) ∧
    ((0 : Byte) ≠ 0xFE ∧ (0 : Byte) ≠ 0xFF ∧ k1.slots[(0 : Byte).toNat]? = some held) ∧
    ((1 : Byte) ≠ 0xFE ∧ (1 : Byte) ≠ 0xFF ∧ k1.slots[(1 : Byte).toNat]? = some spent) :=
  ⟨rfl, ⟨rfl, rfl⟩, ⟨by decide, by decide, rfl⟩, by decide, by decide, rfl⟩

theorem witness_DbgrdDumpsGlobals : k0.params.testHookEn = true := rfl

theorem witness_DbgrdNeedsTestHook : k0Hookless.params.testHookEn = false := rfl

theorem witness_FinalizedContextIsZeroed :
    k2.params.testHookEn = true ∧ (1 : Byte) ≠ 0xFE ∧ (1 : Byte) ≠ 0xFF ∧
    k2.slots[(1 : Byte).toNat]? = some held ∧ held.phase = .active := ⟨rfl, by decide, by decide, rfl, rfl⟩

theorem witness_OkResponseLengths :
    exec (.hasaccel 0 0 []) k0 = .next { k0 with output := [.ok [0x01]] } ∧
    ({ k0 with output := [.ok [0x01]] } : State).output = k0.output ++ [.ok [0x01]] := ⟨rfl, rfl⟩

end Sys2Proof.Tests
end

/-! PROOFS of the invariant `State.Inv`: what a command can do to the contexts and the selection is said once
(`effectOf_shape`), and each shape keeps the invariant. -/

namespace Sys2Proof.Machine

/-! ### What a command that passes its checks does to the state -/

/-- The states an effect can leave, apart from its response: nothing changed, the scratch context cleared (R160), one slot
taken (R156), appended to (R157) or cleared (R158, R159), or the selection written (R184). -/
inductive EffectShape (s : State) : State → Prop where
  | unchanged : EffectShape s s
  | scratchCleared : EffectShape s { s with scr := s.scr.clear }
  | slotTaken (h : Nat) (free : s.smallestFree = some h) :
      EffectShape s (s.setSlot h { Ctx.zero.init s.params with phase := .active })
  | slotAppended (h : Nat) (c : Ctx) (pay : List Byte) (slot : s.slots[h]? = some c) (active : c.phase = .active) :
      EffectShape s (s.setSlot h (c.append s.active s.params pay))
  | slotCleared (h : Nat) (c : Ctx) (ph : Phase) (slot : s.slots[h]? = some c) (inactive : ph ≠ .active) :
      EffectShape s (s.setSlot h { c.clear with phase := ph })
  | selected (m : Force) (exists_of_accel : m = .accel → s.params.hwAccelPresent = true) :
      EffectShape s { s with force := m, active := selectPath m s.params.hwAccelPresent }

/-- `DBGRD` only reads (R185). -/
theorem dbgTarget_state {s u : State} {hnd : Byte} {out : List Byte} (h : dbgTarget s hnd = .ok (u, out)) : u = s := by
  unfold dbgTarget at h
  split at h
  · cases h; rfl
  · split at h
    · cases h; rfl
    · split at h <;> cases h
      rfl

/-- Every effect has one of the shapes: one case for each command. -/
theorem effectOf_shape {i : Instr} {s u : State} {out : List Byte} (h : effectOf i s = .ok (u, out)) :
    EffectShape s u := by
  cases i <;> simp only [effectOf] at h
  case hash => cases h; exact .scratchCleared
  case create =>
    split at h <;> cases h
    exact .slotTaken _ ‹_›
  case update =>
    split at h <;> cases h
    obtain ⟨slot, active⟩ := activeSlot_ok.mp ‹_›
    exact .slotAppended _ _ _ slot active
  case finalize =>
    split at h <;> cases h
    obtain ⟨slot, -⟩ := activeSlot_ok.mp ‹_›
    exact .slotCleared _ _ _ slot (by decide)
  case destroy =>
    split at h <;> cases h
    obtain ⟨slot, -⟩ := takenSlot_ok.mp ‹_›
    exact .slotCleared _ _ _ slot (by decide)
  case setpath =>
    split at h
    · cases h; exact .unchanged
    · split at h <;> cases h
      exact .selected _ (by simp_all)
  case dbgrd => rw [dbgTarget_state h]; exact .unchanged
  all_goals cases h; exact .unchanged

/-! ### The invariant of one context -/

theorem init_active_inv (p : Params) : ({ Ctx.zero.init p with phase := .active } : Ctx).Inv :=
  ⟨fun h => absurd rfl h, fun _ => rfl⟩

theorem clear_inv (c : Ctx) {ph : Phase} (h : ph ≠ .active) : ({ c.clear with phase := ph } : Ctx).Inv :=
  ⟨fun _ => rfl, fun ha => absurd ha h⟩

/-- `CNT = TOT mod 64` survives the wrap of `TOT`, because 64 divides 2^64 (R27(c), R165). -/
theorem append_inv (path : Path) (p : Params) (pay : List Byte) {c : Ctx} (h : c.phase = .active) (hc : c.Inv) :
    (c.append path p pay).Inv := by
  obtain ⟨-, hmod⟩ := hc
  obtain ⟨-, -, hcnt, htot, hphase⟩ := append_spec path p pay c
  refine ⟨fun hn => absurd (hphase.trans h) hn, fun _ => ?_⟩
  have hold := hmod h
  rw [hcnt, htot, BitVec.toNat_add, BitVec.toNat_ofNat]
  omega

/-! ### The invariant of the state -/

theorem inv_setSlot {s : State} (hs : s.Inv) (h : Nat) {c : Ctx} (hc : c.Inv) : (s.setSlot h c).Inv := by
  obtain ⟨hmin, hmax, hslots, hrest⟩ := hs
  refine ⟨by simpa using hmin, by simpa using hmax, fun d hd => ?_, hrest⟩
  rcases List.mem_or_eq_of_mem_set hd with hd | rfl
  · exact hslots d hd
  · exact hc

theorem EffectShape.keeps_inv {s u : State} (h : EffectShape s u) (hs : s.Inv) : u.Inv := by
  cases h with
  | unchanged => exact hs
  | scratchCleared =>
    obtain ⟨hmin, hmax, hslots, hscr, hrest⟩ := hs
    exact ⟨hmin, hmax, hslots, by rw [hscr]; rfl, hrest⟩
  | slotTaken h _ => exact inv_setSlot hs h (init_active_inv s.params)
  | slotAppended h c pay slot active =>
    have ⟨_, _, hslots, _⟩ := hs
    exact inv_setSlot hs h (append_inv _ _ pay active (hslots c (List.mem_of_getElem? slot)))
  | slotCleared h c ph _ inactive => exact inv_setSlot hs h (clear_inv c inactive)
  | selected m exists_of_accel =>
    obtain ⟨hmin, hmax, hslots, hscr, -, -, hout⟩ := hs
    exact ⟨hmin, hmax, hslots, hscr, rfl, exists_of_accel, hout⟩

/-- One more response keeps the invariant if its length fits the byte `RLEN` (R97). -/
theorem inv_output_append {s : State} (hs : s.Inv) {r : Response} (hr : r.Fits) :
    ({ s with output := s.output ++ [r] } : State).Inv := by
  obtain ⟨hmin, hmax, hslots, hscr, hsel, hacc, hout⟩ := hs
  refine ⟨hmin, hmax, hslots, hscr, hsel, hacc, fun q hq => ?_⟩
  rcases List.mem_append.mp hq with hq | hq
  · exact hout q hq
  · rw [List.mem_singleton.mp hq]; exact hr

theorem inv_raise {s : State} (hs : s.Inv) (e : Err) : (raise e s).Inv :=
  inv_output_append (r := .err e) hs trivial

theorem inv_respond {s : State} (hs : s.Inv) {out : List Byte} (h : out.length ≤ 255) : (respond out s).Inv :=
  inv_output_append (r := .ok out) hs h

/-- No `OK` response is longer than the context dump of `DBGRD` (R98, R186). -/
theorem okLength_le (i : Instr) : okLength i ≤ 138 := by
  cases i with
  | dbgrd hnd arg pay =>
    rw [okLength]
    split <;> decide
  | _ => simp [okLength]

/-! ### Commands and steps -/

theorem exec_keeps_inv {i : Instr} {s t : State} (hs : s.Inv) (h : exec i s = .next t) : t.Inv := by
  obtain ⟨t', ht, hcases⟩ := exec_cases i s
  cases ht.symm.trans h
  rcases hcases with ⟨e, rfl⟩ | ⟨u, out, rfl, heff⟩
  · exact inv_raise hs e
  · obtain ⟨-, -, -, -, hlen, -⟩ := effectOf_ok heff
    have hle := okLength_le i
    exact inv_respond ((effectOf_shape heff).keeps_inv hs) (by omega)

/-- Taking the packet off the input touches nothing the invariant speaks of. -/
theorem inv_consume {s : State} (hs : s.Inv) (rest : List Byte) : (s.consume rest).Inv := hs

theorem step_keeps_inv {s t : State} (hs : s.Inv) (h : step s = .next t) : t.Inv := by
  unfold step at h
  split at h
  · cases h; exact hs
  · cases h; exact inv_raise (inv_consume hs _) .illegal
  · exact exec_keeps_inv (inv_consume hs _) h

/-- The state after reset has the invariant for every value of the parameters and every admissible number of slots. -/
theorem resetWith_inv (p : Params) {n : Nat} (hmin : 1 ≤ n) (hmax : n ≤ 254) : (State.resetWith p n).Inv := by
  refine ⟨by simpa using hmin, by simpa using hmax, fun c hc => ?_, rfl, ?_, nofun, nofun⟩
  · obtain ⟨-, rfl⟩ := List.mem_replicate.mp hc
    exact clear_inv Ctx.zero (ph := .free) (by decide)
  · rw [resetWith_active, resetWith_force, resetWith_params]
    cases p.hwAccelPresent <;> rfl

theorem nCtx_bounds : 1 ≤ Config.nCtx ∧ Config.nCtx ≤ 254 := by
  have := Config.lastSlot.isLt
  unfold Config.nCtx
  omega

end Sys2Proof.Machine

namespace Sys2Proof.Proofs

open Sys2Proof.Machine

/-- Settles O12: every command leaves the state in one of the shapes of `effectOf_shape`, and each shape keeps the
invariant. -/
theorem stepKeepsInvariant : Obligations.StepKeepsInvariant :=
  fun _ _ hs h => step_keeps_inv hs h

/-- Settles O13, for the opaque parameters and slot count of `Config`. -/
theorem resetMeetsInvariant : Obligations.ResetMeetsInvariant :=
  resetWith_inv Config.params nCtx_bounds.1 nCtx_bounds.2

end Sys2Proof.Proofs

/-! PROOFS about the registers of the state (spec/10_state.md): what reset leaves in them, what each command that names
them writes, and which commands leave them alone. -/

namespace Sys2Proof.Machine

/-! ### The forms of one step -/

/-- Everything a step can do: idle, answer an error from the state without the consumed packet, or respond from the
state that the effect of a command gives. -/
theorem step_cases {s t : State} (h : step s = .next t) :
    t = s ∨ (∃ e rest, t = raise e (s.consume rest)) ∨
    ∃ i rest u out, t = respond out u ∧ effectOf i (s.consume rest) = .ok (u, out) := by
  unfold step at h
  split at h
  · cases h; exact .inl rfl
  · cases h; exact .inr (.inl ⟨_, _, rfl⟩)
  next i rest _ =>
    obtain ⟨t', ht, hcases⟩ := exec_cases i (s.consume rest)
    cases ht.symm.trans h
    rcases hcases with ⟨e, he⟩ | ⟨u, out, hr, heff⟩
    · exact .inr (.inl ⟨e, rest, he⟩)
    · exact .inr (.inr ⟨i, rest, u, out, hr, heff⟩)

theorem step_keeps_configuration {s t : State} (h : step s = .next t) :
    t.params = s.params ∧ t.slots.length = s.slots.length := by
  rcases step_cases h with rfl | ⟨e, rest, rfl⟩ | ⟨i, rest, u, out, rfl, heff⟩
  · exact ⟨rfl, rfl⟩
  · exact ⟨rfl, rfl⟩
  · obtain ⟨-, -, hparams, hlen, -⟩ := effectOf_ok heff
    exact ⟨hparams, hlen⟩

/-- A command whose effect, if it has one, leaves the state as it was adds nothing but its response. -/
theorem exec_of_effect_keeps_state {i : Instr} {s : State}
    (h : ∀ u out, effectOf i s = .ok (u, out) → u = s) :
    ∃ r, exec i s = .next { s with output := s.output ++ [r] } := by
  obtain ⟨t, ht, ⟨e, rfl⟩ | ⟨u, out, rfl, heff⟩⟩ := exec_cases i s
  · exact ⟨.err e, ht⟩
  · rw [h u out heff] at ht
    exact ⟨.ok out, ht⟩

/-! ### Reset and the global registers -/

/-- The slots and the scratch context after reset (R38). -/
theorem resetWith_ctx {p : Params} {n : Nat} {c : Ctx}
    (h : c ∈ (State.resetWith p n).slots ∨ c = (State.resetWith p n).scr) : c = Ctx.zero := by
  rcases h with h | h
  · exact List.eq_of_mem_replicate h
  · exact h

/-- Bit 0 of `CAP` (R33). -/
@[simp] theorem cap_getLsbD_zero (s : State) : s.cap.getLsbD 0 = s.params.hwAccelPresent := by
  unfold State.cap
  cases s.params.hwAccelPresent <;> cases s.params.wideVectorPresent <;> rfl

/-- Bit 1 of `CAP` (R33). -/
@[simp] theorem cap_getLsbD_one (s : State) : s.cap.getLsbD 1 = s.params.wideVectorPresent := by
  unfold State.cap
  cases s.params.hwAccelPresent <;> cases s.params.wideVectorPresent <;> rfl

/-- `PSEL` after reset is the bit `HW_ACCEL` of `CAP` (R35, R38). -/
theorem resetWith_psel (p : Params) (n : Nat) :
    (State.resetWith p n).psel = BitVec.setWidth 32 ((State.resetWith p n).cap.extractLsb' 0 1) := by
  simp only [State.psel, State.cap, resetWith_params, resetWith_active]
  cases p.hwAccelPresent <;> cases p.wideVectorPresent <;> rfl

theorem ctrl_toNat (s : State) : s.ctrl.toNat = s.force.code := by
  unfold State.ctrl
  cases s.force <;> rfl

theorem psel_toNat (s : State) : s.psel.toNat = s.active.code := by
  unfold State.psel
  cases s.active <;> rfl

theorem cap_toNat (s : State) :
    s.cap.toNat = s.params.hwAccelPresent.toNat + 2 * s.params.wideVectorPresent.toNat := by
  unfold State.cap
  cases s.params.hwAccelPresent <;> cases s.params.wideVectorPresent <;> rfl

/-- A register of 32 bits survives `LE32`. -/
theorem leNat_leBytes_register (v : BitVec 32) : leNat (leBytes 4 v.toNat) = v.toNat := by
  rw [leNat_leBytes]
  exact Nat.mod_eq_of_lt v.isLt

/-- The four registers of the global dump, by offset (R186). -/
theorem globalDump_registers (s : State) :
    (globalDump s).take 4 = leBytes 4 s.ctrl.toNat ∧
    ((globalDump s).drop 4).take 4 = leBytes 4 s.cap.toNat ∧
    ((globalDump s).drop 8).take 4 = leBytes 4 s.parh.toNat ∧
    (globalDump s).drop 12 = leBytes 4 s.psel.toNat :=
  ⟨rfl, rfl, rfl, rfl⟩

/-! ### `CREATE` and `UPDATE` on the slots -/

/-- The slot `CREATE` takes, from its description (R156). -/
theorem smallestFree_eq_some {s : State} {h : Nat} {c : Ctx} (hc : s.slots[h]? = some c) (hfree : c.phase = .free)
    (hlow : ∀ j d, j < h → s.slots[j]? = some d → d.phase ≠ .free) : s.smallestFree = some h := by
  obtain ⟨hlt, rfl⟩ := List.getElem?_eq_some_iff.mp hc
  refine List.findIdx?_eq_some_iff_getElem.mpr ⟨hlt, by simpa using hfree, fun j hj => ?_⟩
  simpa using hlow j _ hj (List.getElem?_eq_getElem (hj.trans hlt))

/-- Byte `j` of lane `i` in the block of four lanes (R10, R21). -/
theorem blockOfLanes_lane (x : Vector Lane 4) {i j : Nat} (hi : i < 4) (hj : j < 16) :
    (blockOfLanes x)[16 * i + j] = (x[i])[j] := by
  have hq : (16 * i + j) / 16 = i := by omega
  have hr : (16 * i + j) % 16 = j := by omega
  simp only [blockOfLanes_getElem, hq, hr]

/-- `UPDATE` of an `ACTIVE` slot is `Append` on it (R157). -/
theorem exec_update_active {s : State} {h : Byte} {c : Ctx} (pay : List Byte) (hc : s.slots[h.toNat]? = some c)
    (hactive : c.phase = .active) :
    exec (.update h 0 pay) s = .next { s with
      slots := s.slots.set h.toNat (c.append s.active s.params pay)
      output := s.output ++ [.ok []] } := by
  have hf : operandError formUpdate h 0 pay.length = none := operandError_none.mpr ⟨by simp [formUpdate], rfl⟩
  have heff : effectOf (.update h 0 pay) s = .ok (s.setSlot h.toNat (c.append s.active s.params pay), []) := by
    simp only [effectOf, activeSlot_ok.mpr ⟨hc, hactive⟩]
  exact exec_effect_ok (i := .update h 0 pay) (.inl (by simp [Instr.opcode])) hf heff

/-! ### The buffer after `Append`, byte by byte -/

theorem getD_drop (l : List Byte) (n j : Nat) : (l.drop n).getD j 0 = l.getD (n + j) 0 := by
  simp only [List.getD_eq_getElem?_getD, List.getElem?_drop]

theorem getD_take (l : List Byte) {n j : Nat} (h : j < n) : (l.take n).getD j 0 = l.getD j 0 := by
  simp only [List.getD_eq_getElem?_getD, List.getElem?_take_of_lt h]

section Append
variable (path : Path) (p : Params) (pay : List Byte) (c : Ctx)

/-- A payload that fills no block is not absorbed (R153). -/
theorem append_hashState_short (h : c.cnt.toNat + pay.length < 64) :
    (c.append path p pay).hashState = c.hashState := by
  obtain ⟨hs, -⟩ := append_spec path p pay c
  rw [hs, Nat.div_eq_of_lt h, absorbBytes]

theorem append_buf_short_getElem (h : c.cnt.toNat + pay.length < 64) (j : Nat) (hj : j < 64) :
    (c.append path p pay).buf[j] =
      if c.cnt.toNat ≤ j ∧ j < c.cnt.toNat + pay.length then pay.getD (j - c.cnt.toNat) 0 else c.buf[j] := by
  rw [append_buf_short path p pay c h, writeBuf_getElem]

/-- A payload that fills a block: the leftover, then the top-up if there was one, then the old bytes (R23, R153). -/
theorem append_buf_full_getElem (h : 64 ≤ c.cnt.toNat + pay.length) (j : Nat) (hj : j < 64) :
    (c.append path p pay).buf[j] =
      if j < (c.cnt.toNat + pay.length) % 64 then
        pay.getD (pay.length - (c.cnt.toNat + pay.length) % 64 + j) 0
      else if 0 < c.cnt.toNat ∧ c.cnt.toNat ≤ j then pay.getD (j - c.cnt.toNat) 0
      else c.buf[j] := by
  have hn := cnt_lt c
  rcases Nat.eq_zero_or_pos c.cnt.toNat with h0 | h0
  · have hstart : 64 * (pay.length / 64) = pay.length - (c.cnt.toNat + pay.length) % 64 := by omega
    rw [append_buf_empty path p pay c (BitVec.eq_of_toNat_eq h0), hstart, writeBuf_getElem, getD_drop,
      List.length_drop, Nat.sub_zero]
    by_cases hlow : j < (c.cnt.toNat + pay.length) % 64
    · rw [if_pos (by omega), if_pos hlow]
    · rw [if_neg (by omega), if_neg hlow, if_neg (by omega)]
  · rw [append_buf_full path p pay c h0 h, writeBuf_getElem, writeBuf_getElem, getD_drop, List.length_drop,
      List.length_take, Nat.sub_zero]
    by_cases hlow : j < (c.cnt.toNat + pay.length) % 64
    · rw [if_pos (by omega), if_pos hlow]
    rw [if_neg (by omega), if_neg hlow]
    by_cases htop : c.cnt.toNat ≤ j
    · rw [if_pos (by omega), if_pos ⟨h0, htop⟩, getD_take _ (by omega)]
    · rw [if_neg (by omega), if_neg (by omega)]

end Append

/-! ### The datapaths compute the same -/

/-- The two forms of the S-box in R124 agree, at each of the 256 bytes. -/
theorem sboxTable_eq_sboxFormula : ∀ v : Byte, sboxTable v = sboxFormula v := by decide +kernel

section Datapath
variable (a b : Path) (p : Params)

theorem subByte_eq_sboxTable (v : Byte) : subByte a v = sboxTable v := by
  cases a with
  | accel => rfl
  | portable => exact (sboxTable_eq_sboxFormula v).symm

theorem aesRound_path (x k : Lane) : aesRound a x k = aesRound b x k := by
  have hsub : subByte a = subByte b := funext fun v => (subByte_eq_sboxTable a v).trans (subByte_eq_sboxTable b v).symm
  simp only [aesRound, subBytes, hsub]

theorem rounds_path (n : Nat) (x : Vector Lane 4) : rounds a p n x = rounds b p n x := by
  induction n with
  | zero => rfl
  | succ n ih => simp only [rounds, roundStep, ih, aesRound_path a b]

/-- `P` does not depend on the datapath that computes it (R133, R136). -/
theorem permP_path (t : Block) : permP a p t = permP b p t := by
  simp only [permP, rounds_path a b]

theorem absorb_path (x : Block) (c : Ctx) : c.absorb a p x = c.absorb b p x := by
  simp only [Ctx.absorb, absorbState, permP_path a b]

theorem topUp_path (bytes : List Byte) (c : Ctx) : c.topUp a p bytes = c.topUp b p bytes := by
  simp only [Ctx.topUp, absorb_path a b]

theorem absorbDirect_path (k : Nat) (pay : List Byte) (c : Ctx) :
    absorbDirect a p k pay c = absorbDirect b p k pay c := by
  induction k generalizing pay c with
  | zero => rfl
  | succ k ih => rw [absorbDirect, absorbDirect, absorb_path a b, ih]

theorem append_path (pay : List Byte) (c : Ctx) : c.append a p pay = c.append b p pay := by
  simp only [Ctx.append, topUp_path a b, absorbDirect_path a b]

theorem finish_path (c : Ctx) : c.finish a p = c.finish b p := by
  have hspill : c.spill a p = c.spill b p := by simp only [Ctx.spill, absorb_path a b]
  simp only [Ctx.finish, hspill, permP_path a b]

end Datapath

/-! ### Commands under another selection -/

/-- The state with another forced mode and another active datapath (R32, R35). -/
def State.withSelection (f : Force) (path : Path) (s : State) : State := { s with force := f, active := path }

section WithSelection
variable (f : Force) (path : Path) (s : State)
@[simp] theorem withSelection_params : (s.withSelection f path).params = s.params := rfl
@[simp] theorem withSelection_scr : (s.withSelection f path).scr = s.scr := rfl
@[simp] theorem withSelection_active : (s.withSelection f path).active = path := rfl
@[simp] theorem withSelection_smallestFree : (s.withSelection f path).smallestFree = s.smallestFree := rfl
@[simp] theorem withSelection_activeSlot (h : Byte) : (s.withSelection f path).activeSlot h = s.activeSlot h := rfl
@[simp] theorem withSelection_takenSlot (h : Byte) : (s.withSelection f path).takenSlot h = s.takenSlot h := rfl
@[simp] theorem withSelection_setSlot (h : Nat) (c : Ctx) :
    (s.withSelection f path).setSlot h c = (s.setSlot h c).withSelection f path := rfl

theorem hashDigest_withSelection (msg : List Byte) : hashDigest (s.withSelection f path) msg = hashDigest s msg := by
  simp only [hashDigest, withSelection_params, withSelection_scr, withSelection_active, append_path path s.active,
    finish_path path s.active]

/-- What an effect leaves, under another selection. -/
def Effect.withSelection (x : Effect) : Effect := x.map fun r => (r.1.withSelection f path, r.2)

@[simp] theorem Effect.withSelection_ok (u : State) (out : List Byte) :
    Effect.withSelection f path (.ok (u, out)) = .ok (u.withSelection f path, out) := rfl

@[simp] theorem Effect.withSelection_error (e : Err) : Effect.withSelection f path (.error e) = .error e := rfl

/-- The frame of a command passes another selection through. -/
theorem commandState_withSelection (form : OperandForm) (hnd arg : Byte) (pay : List Byte) (x : Effect) :
    commandState form hnd arg pay (s.withSelection f path) (Effect.withSelection f path x) =
      (commandState form hnd arg pay s x).withSelection f path := by
  unfold commandState
  cases operandError form hnd arg pay.length with
  | some e => rfl
  | none => cases x <;> rfl

/-- The effects of commands 1 to 9 depend on the selection only through the datapath that computes `P`, and write
neither register (R136, R37). -/
theorem effectOf_withSelection {i : Instr} (h : i.opcode.toNat < 0x0A) :
    effectOf i (s.withSelection f path) = Effect.withSelection f path (effectOf i s) := by
  cases i with
  | hash hnd arg pay =>
    simp only [effectOf, hashDigest_withSelection, Effect.withSelection_ok]
    rfl
  | create hnd arg pay =>
    simp only [effectOf, withSelection_smallestFree]
    cases s.smallestFree <;> simp
  | update hnd arg pay =>
    simp only [effectOf, withSelection_activeSlot, withSelection_active, withSelection_params,
      append_path path s.active]
    cases s.activeSlot hnd <;> simp
  | finalize hnd arg pay =>
    simp only [effectOf, withSelection_activeSlot, withSelection_active, withSelection_params,
      finish_path path s.active]
    cases s.activeSlot hnd <;> simp
  | destroy hnd arg pay =>
    simp only [effectOf, withSelection_takenSlot]
    cases s.takenSlot hnd <;> simp
  | permute hnd arg pay =>
    simp only [effectOf, withSelection_active, withSelection_params, permP_path path s.active,
      Effect.withSelection_ok]
  | hasaccel hnd arg pay => rfl
  | haswide hnd arg pay => rfl
  | parallel hnd arg pay => rfl
  | setpath hnd arg pay => exact absurd h (by simp [Instr.opcode])
  | dbgrd hnd arg pay => exact absurd h (by simp [Instr.opcode])

end WithSelection

theorem exec_withSelection {i : Instr} {s t : State} (f : Force) (path : Path) (hi : i.opcode.toNat < 0x0A)
    (h : exec i s = .next t) : exec i (s.withSelection f path) = .next (t.withSelection f path) := by
  have hne : i.opcode ≠ 0x0B := by
    intro he
    simp [he] at hi
  rw [exec_effect i s (.inl hne)] at h
  rw [exec_effect i _ (.inl hne), effectOf_withSelection f path s hi, commandState_withSelection]
  cases h
  rfl

/-! ### `SETPATH` -/

/-- `SETPATH` of a mode that exists sets the mode and selects the datapath (R184, R35). -/
theorem exec_setpath_mode {arg : Byte} {m : Force} (s : State) (harg : forceOfArg arg = some m)
    (hm : m = .accel → s.params.hwAccelPresent = true) :
    exec (.setpath 0 arg []) s = .next { s with
      force := m
      active := selectPath m s.params.hwAccelPresent
      output := s.output ++
        [.ok [BitVec.ofNat 8 m.code, BitVec.ofNat 8 (selectPath m s.params.hwAccelPresent).code]] } := by
  have hle : arg.toNat ≤ 3 := by
    unfold forceOfArg at harg
    split at harg <;> simp_all
  have hf : operandError formSetpath 0 arg 0 = none :=
    operandError_none.mpr ⟨by simpa [formSetpath] using hle, rfl⟩
  have hmode : ¬(m = .accel ∧ s.params.hwAccelPresent = false) := by
    rintro ⟨haccel, habsent⟩
    simp [hm haccel] at habsent
  have heff : effectOf (.setpath 0 arg []) s =
      .ok (s.withSelection m (selectPath m s.params.hwAccelPresent),
        pathStatus (s.withSelection m (selectPath m s.params.hwAccelPresent))) := by
    simp only [effectOf, harg, if_neg hmode, State.withSelection]
  exact exec_effect_ok (i := .setpath 0 arg []) (.inl (by simp [Instr.opcode])) hf heff

/-- `SETPATH` with `KEEP` writes nothing and reports the selection (R184). -/
theorem exec_setpath_keep (s : State) :
    exec (.setpath 0 3 []) s = .next { s with
      output := s.output ++ [.ok [BitVec.ofNat 8 s.force.code, BitVec.ofNat 8 s.active.code]] } :=
  exec_effect_ok (i := .setpath 0 3 []) (.inl (by decide)) (by decide) rfl

end Sys2Proof.Machine

namespace Sys2Proof.Proofs

open Sys2Proof.Machine

/-- Settles O15, by the forms of a step. -/
theorem configurationNeverChanges : Obligations.ConfigurationNeverChanges :=
  fun _ _ h => step_keeps_configuration h

/-- Settles O25: the described slot is the one `CREATE` searches for. -/
theorem createTakesSmallestFree : Obligations.CreateTakesSmallestFree := by
  intro s h c hc hfree hlow
  have heff : effectOf (.create 0 0 []) s =
      .ok (s.setSlot h { Ctx.zero.init s.params with phase := .active }, [BitVec.ofNat 8 h]) := by
    simp only [effectOf, smallestFree_eq_some hc hfree hlow]
  exact ⟨exec_effect_ok (.inl (by decide)) (by decide) heff, fun i j hi hj => blockOfLanes_lane _ hi hj⟩

/-- Settles O28, on the context that `Append` leaves. -/
theorem updateKeepsStaleBytes : Obligations.UpdateKeepsStaleBytes := by
  intro s h c pay hc hactive
  refine ⟨_, exec_update_active pay hc hactive, fun hshort => ⟨?_, ?_⟩, ?_, ?_⟩
  · exact append_hashState_short _ _ pay c hshort
  · exact append_buf_short_getElem _ _ pay c hshort
  · exact append_buf_full_getElem _ _ pay c
  · exact append_buf_blocks _ _ pay c

/-- Settles O41: neither effect changes a state whose scratch context is clear. -/
theorem hashAndPermuteTouchNoSlot : Obligations.HashAndPermuteTouchNoSlot := by
  intro s h a pay hscr
  have hhash : ∀ u out, effectOf (.hash h a pay) s = .ok (u, out) → u = s := by
    intro u out heff
    cases heff
    have hclear : s.scr.clear = s.scr := by rw [hscr]; rfl
    rw [hclear]
  have hpermute : ∀ u out, effectOf (.permute h a pay) s = .ok (u, out) → u = s := by
    intro u out heff
    cases heff
    rfl
  obtain ⟨r, hr⟩ := exec_of_effect_keeps_state hhash
  obtain ⟨r', hr'⟩ := exec_of_effect_keeps_state hpermute
  exact ⟨r, r', hr, hr'⟩

/-- Settles O43: the datapath does not show in `P`, and nothing else of commands 1 to 9 reads the selection. -/
theorem resultsIndependentOfSelection : Obligations.ResultsIndependentOfSelection :=
  fun _ _ _ f path hi h => exec_withSelection f path hi h

/-- Settles O14, for the opaque parameters and slot count of `Config`. -/
theorem resetState : Obligations.ResetState := by
  refine ⟨fun c hc => ?_, List.length_replicate, rfl, resetWith_psel _ _, cap_getLsbD_zero _, cap_getLsbD_one _,
    rfl, rfl, rfl⟩
  rw [resetWith_ctx hc]
  exact ⟨rfl, rfl, rfl, rfl, rfl⟩

/-- Settles O47: the three modes by `exec_setpath_mode`, and `KEEP`. -/
theorem setpathSetsSelection : Obligations.SetpathSetsSelection := by
  intro s
  refine ⟨?_, exec_setpath_mode s rfl nofun, fun haccel => exec_setpath_mode s rfl fun _ => haccel,
    exec_setpath_keep s⟩
  rw [exec_setpath_mode s (m := .auto) rfl nofun]
  cases s.params.hwAccelPresent <;> rfl

/-- Settles O50: the dump is the four registers in `LE32`, and each register holds the code of its fields. -/
theorem dbgrdDumpsGlobals : Obligations.DbgrdDumpsGlobals := by
  intro s hhook
  obtain ⟨hctrl, hcap, hparh, hpsel⟩ := globalDump_registers s
  refine ⟨globalDump s, exec_effect_ok (i := .dbgrd 0xFE 0 []) (.inr hhook) (by decide) rfl, globalDump_length s,
    ?_, ?_, ?_, ?_⟩
  · rw [hctrl, leNat_leBytes_register, ctrl_toNat]
    cases s.force <;> rfl
  · rw [hcap, leNat_leBytes_register, cap_toNat]
    cases s.params.hwAccelPresent <;> cases s.params.wideVectorPresent <;> rfl
  · rw [hparh, leNat_leBytes_register, State.parh]
  · rw [hpsel, leNat_leBytes_register, psel_toNat]
    cases s.active <;> rfl

end Sys2Proof.Proofs

/-! PROOFS about the command interface and the independence of commands: a command that names a handle sees the slot of
that handle and the global registers and writes at most that slot (`exec_handleCommand`), so commands on different
handles commute; and the lanes of `PERMUTE`, followed by their position through the rounds. -/

namespace Sys2Proof.Machine

/-! ### Commands that name a handle -/

/-- The four commands that name the handle `h` (R71), with operands `a` and `pay`. -/
abbrev handleCommands (h a : Byte) (pay : List Byte) : List Instr :=
  [.update h a pay, .finalize h a pay, .destroy h a pay, .dbgrd h a pay]

/-- What a command that names the handle `h` can read is the same in both states: the slot it names, the global registers
and the scratch context (R71, R157, R158, R159, R185). -/
structure SameView (h : Byte) (s s' : State) : Prop where
  params : s'.params = s.params
  force : s'.force = s.force
  active : s'.active = s.active
  scr : s'.scr = s.scr
  slot : s'.slot? h = s.slot? h

/-- What a command that names the handle `h` leaves: the slot written and a response given. -/
def State.answerWriting (s : State) (h : Byte) (c : Ctx) (r : Response) : State :=
  { s with slots := s.slots.set h.toNat c, output := s.output ++ [r] }

/-- The registers of the slot that `h` names, zero where it names none. -/
def State.current (s : State) (h : Byte) : Ctx := (s.slot? h).getD Ctx.zero

/-- Writing back what a slot holds writes nothing. -/
theorem setSlot_current (s : State) (h : Byte) : s.setSlot h.toNat (s.current h) = s := by
  have hset : s.slots.set h.toNat (s.current h) = s.slots := by
    unfold State.current State.slot?
    cases hslot : s.slots[h.toNat]? with
    | none => exact List.set_eq_of_length_le (List.getElem?_eq_none_iff.mp hslot)
    | some c =>
      obtain ⟨hlt, rfl⟩ := List.getElem?_eq_some_iff.mp hslot
      exact List.set_getElem_self hlt
  rw [State.setSlot, hset]

theorem SameView.refl (h : Byte) (s : State) : SameView h s s := ⟨rfl, rfl, rfl, rfl, rfl⟩

/-- A command on another handle `g` leaves the view of `h` as it was. -/
theorem sameView_answerWriting {h g : Byte} (hne : h ≠ g) (s : State) (c : Ctx) (r : Response) :
    SameView h s (s.answerWriting g c r) where
  params := rfl
  force := rfl
  active := rfl
  scr := rfl
  slot := List.getElem?_set_ne fun heq => hne (BitVec.eq_of_toNat_eq heq.symm)

namespace SameView

variable {h : Byte} {s s' : State}

theorem activeSlot_eq (hv : SameView h s s') : s'.activeSlot h = s.activeSlot h := by
  simp only [State.activeSlot, hv.slot]

theorem takenSlot_eq (hv : SameView h s s') : s'.takenSlot h = s.takenSlot h := by
  simp only [State.takenSlot, hv.slot]

theorem current_eq (hv : SameView h s s') : s'.current h = s.current h := by
  simp only [State.current, hv.slot]

theorem globalDump_eq (hv : SameView h s s') : globalDump s' = globalDump s := by
  simp only [globalDump, State.ctrl, State.cap, State.parh, State.psel, hv.params, hv.force, hv.active]

end SameView

/-- An effect on the slot `h` that every state with the same view of `h` shares: one error, or one content of the slot
and one payload. -/
def LocalEffect (h : Byte) (s : State) (effect : State → Effect) : Prop :=
  (∃ e, ∀ s', SameView h s s' → effect s' = .error e) ∨
  ∃ c out, ∀ s', SameView h s s' → effect s' = .ok (s'.setSlot h.toNat c, out)

/-- A read writes the slot back. -/
theorem localEffect_read {h : Byte} {s : State} {effect : State → Effect} (out : List Byte)
    (heff : ∀ s', SameView h s s' → effect s' = .ok (s', out)) : LocalEffect h s effect :=
  .inr ⟨s.current h, out, fun s' hv => by rw [heff s' hv, ← hv.current_eq, setSlot_current]⟩

/-- `DBGRD` reads the global registers, the scratch context or the slot that the handle names (R185). -/
theorem dbgTarget_local (h : Byte) (s : State) : LocalEffect h s (dbgTarget · h) := by
  by_cases hglobal : h = 0xFE
  · exact localEffect_read (globalDump s) fun s' hv => by rw [dbgTarget, if_pos hglobal, hv.globalDump_eq]
  by_cases hscratch : h = 0xFF
  · exact localEffect_read (ctxDump s.scr) fun s' hv => by
      rw [dbgTarget, if_neg hglobal, if_pos hscratch, hv.scr]
  cases hslot : s.slot? h with
  | none =>
    exact .inl ⟨.badHandle, fun s' hv => by
      simp only [dbgTarget, if_neg hglobal, if_neg hscratch, hv.slot, hslot]⟩
  | some c =>
    exact localEffect_read (ctxDump c) fun s' hv => by
      simp only [dbgTarget, if_neg hglobal, if_neg hscratch, hv.slot, hslot]

/-- The effect of a command that names a handle reads its view and writes its slot (R157, R158, R159, R185). -/
theorem effectOf_local {h a : Byte} {pay : List Byte} {i : Instr} (hi : i ∈ handleCommands h a pay) (s : State) :
    LocalEffect h s (effectOf i) := by
  simp only [List.mem_cons, List.not_mem_nil, or_false] at hi
  rcases hi with rfl | rfl | rfl | rfl
  · cases hslot : s.activeSlot h with
    | error e => exact .inl ⟨e, fun s' hv => by simp only [effectOf, hv.activeSlot_eq, hslot]⟩
    | ok c =>
      exact .inr ⟨c.append s.active s.params pay, [], fun s' hv => by
        simp only [effectOf, hv.activeSlot_eq, hv.active, hv.params, hslot]⟩
  · cases hslot : s.activeSlot h with
    | error e => exact .inl ⟨e, fun s' hv => by simp only [effectOf, hv.activeSlot_eq, hslot]⟩
    | ok c =>
      exact .inr ⟨{ c.clear with phase := .finalized }, (c.finish s.active s.params).toList, fun s' hv => by
        simp only [effectOf, hv.activeSlot_eq, hv.active, hv.params, hslot]⟩
  · cases hslot : s.takenSlot h with
    | error e => exact .inl ⟨e, fun s' hv => by simp only [effectOf, hv.takenSlot_eq, hslot]⟩
    | ok c =>
      exact .inr ⟨{ c.clear with phase := .free }, [], fun s' hv => by
        simp only [effectOf, hv.takenSlot_eq, hslot]⟩
  · exact dbgTarget_local h s

/-- The command leaves `c` in the slot `h` and answers `r` in every state with the same view of `h`. -/
abbrev LocalExec (h : Byte) (s : State) (i : Instr) (c : Ctx) (r : Response) : Prop :=
  ∀ s', SameView h s s' → exec i s' = .next (s'.answerWriting h c r)

/-- An error response writes nothing, which is the slot written back. -/
theorem localExec_raise {h : Byte} {s : State} {i : Instr} {e : Err}
    (hexec : ∀ s', SameView h s s' → exec i s' = .next (raise e s')) : LocalExec h s i (s.current h) (.err e) := by
  intro s' hv
  have hback : raise e s' = s'.answerWriting h (s'.current h) (.err e) :=
    (congrArg (raise e) (setSlot_current s' h)).symm
  rw [hexec s' hv, hback, hv.current_eq]

/-- Without the test hook `DBGRD` is illegal (R96 step 1, R185). -/
theorem exec_gated {i : Instr} {s : State} (hopc : i.opcode = 0x0B) (hhook : s.params.testHookEn = false) :
    exec i s = .next (raise .illegal s) := by
  cases i with
  | dbgrd hnd arg pay =>
    show execDbgrd hnd arg pay s = _
    rw [execDbgrd, hhook]
    rfl
  | _ => exact absurd hopc (by simp [Instr.opcode])

/-- A command that names the handle `h` writes at most the slot `h`, and what it writes and answers is the same from every
state with the same view of `h`. -/
theorem exec_handleCommand {h a : Byte} {pay : List Byte} {i : Instr} (hi : i ∈ handleCommands h a pay) (s : State) :
    ∃ c r, LocalExec h s i c r := by
  by_cases hgate : i.opcode ≠ 0x0B ∨ s.params.testHookEn = true
  · have hgate' : ∀ s', SameView h s s' → i.opcode ≠ 0x0B ∨ s'.params.testHookEn = true := fun s' hv => by
      rwa [hv.params]
    cases hform : operandError (formOf i) i.hnd i.arg i.pay.length with
    | some e =>
      exact ⟨_, _, localExec_raise fun s' hv => by
        rw [exec_effect i s' (hgate' s' hv), commandState_operandError hform]⟩
    | none =>
      rcases effectOf_local hi s with ⟨e, heff⟩ | ⟨c, out, heff⟩
      · exact ⟨_, _, localExec_raise fun s' hv => exec_effect_error (hgate' s' hv) hform (heff s' hv)⟩
      · exact ⟨c, .ok out, fun s' hv => exec_effect_ok (hgate' s' hv) hform (heff s' hv)⟩
  · obtain ⟨hopc, hhook⟩ := not_or.mp hgate
    exact ⟨_, _, localExec_raise fun s' hv =>
      exec_gated (not_not.mp hopc) (by rw [hv.params]; exact Bool.eq_false_of_not_eq_true hhook)⟩

/-- Two commands in a row, the second from the state the first leaves (R66). -/
theorem runCommands_pair {i j : Instr} {s t u : State} (hi : exec i s = .next t) (hj : exec j t = .next u) :
    runCommands [i, j] s = .next u := by
  simp only [runCommands, hi, hj]

/-- Commands on two handles in a row write both slots and give both responses. -/
theorem runCommands_handleCommands {h g : Byte} (hne : h ≠ g) {s : State} {i j : Instr} {c d : Ctx} {r q : Response}
    (hi : LocalExec h s i c r) (hj : LocalExec g s j d q) :
    runCommands [i, j] s = .next { s with
      slots := (s.slots.set h.toNat c).set g.toNat d
      output := s.output ++ [r, q] } := by
  rw [runCommands_pair (hi s (.refl h s)) (hj _ (sameView_answerWriting hne.symm s c r))]
  simp only [State.answerWriting, List.append_assoc, List.cons_append, List.nil_append]

/-! ### Reads -/

/-- `KEEP` names no mode, so `SETPATH` with it writes no register (R184). -/
theorem effectOf_setpath_keep (h : Byte) (pay : List Byte) (s : State) :
    effectOf (.setpath h 3 pay) s = .ok (s, pathStatus s) := rfl

/-! ### The lanes through the rounds -/

/-- The position of a lane stays as it is over an even round (R129). -/
theorem lanePosition_even (p : Params) (i : Nat) {r : Nat} (hr : r % 2 = 0) :
    lanePosition p i (r + 1) = lanePosition p i r := by
  have hhalf : (r + 1) / 2 = r / 2 := by omega
  simp only [lanePosition, hhalf]

/-- After an odd round the rotation takes the lane from where it was (R128, R129). -/
theorem lanePosition_odd (p : Params) (i : Nat) {r : Nat} (hr : r % 2 = 1) :
    ((lanePosition p i (r + 1)).val + rotStepNat p.rotStep) % 4 = (lanePosition p i r).val := by
  have hhalf : (r + 1) / 2 = r / 2 + 1 := by omega
  rw [lanePosition_val, lanePosition_val, hhalf]
  cases p.rotStep <;> simp only [rotStepNat] <;> omega

/-- After eight rounds every lane is back where it started (R132). -/
theorem lanePosition_eight (p : Params) {i : Nat} (hi : i < 4) : (lanePosition p i 8).val = i := by
  rw [lanePosition_val]
  cases p.rotStep <;> simp only [rotStepNat] <;> omega

/-- The lane that started at position `i` has gone through its keyed rounds and stands at its position (R127, R128,
R129). -/
theorem rounds_at_lanePosition (path : Path) (p : Params) (x : Vector Lane 4) {i : Nat} (hi : i < 4) (n : Nat) :
    (rounds path p n x)[lanePosition p i n] =
      (List.range n).foldl (fun a r => aesRound path a (laneConstant p i r)) x[i] := by
  induction n with
  | zero =>
    have hstart : (lanePosition p i 0).val = i := by rw [lanePosition_val]; omega
    simp only [rounds, Fin.getElem_fin, hstart, List.range_zero, List.foldl_nil]
  | succ n ih =>
    rw [List.range_succ, List.foldl_append, List.foldl_cons, List.foldl_nil, ← ih, rounds, laneConstant_eq]
    simp only [Fin.getElem_fin]
    rcases Nat.mod_two_eq_zero_or_one n with hn | hn
    · rw [roundStep_even path p n _ hn]
      simp only [lanePosition_even p i hn]
    · rw [roundStep_odd path p n _ hn]
      simp only [lanePosition_odd p i hn]

/-- A lane after the eight rounds (R132). -/
theorem rounds_eight_getElem (path : Path) (p : Params) (x : Vector Lane 4) {i : Nat} (hi : i < 4) :
    (rounds path p 8 x)[i] = (List.range 8).foldl (fun a r => aesRound path a (laneConstant p i r)) x[i] := by
  rw [← rounds_at_lanePosition path p x hi 8]
  simp only [Fin.getElem_fin, lanePosition_eight p hi]

/-- Lane `i` of a block that is read from a byte string (R10, R121). -/
theorem lanesOf_blockOfBytes_getElem (l : List Byte) {i : Nat} (hi : i < 4) :
    (lanesOf (blockOfBytes l))[i] = Vector.ofFn fun j : Fin 16 => l.getD (16 * i + j.val) 0 := by
  ext1 j hj
  rw [lanesOf_getElem, laneOf_getElem, blockOfBytes_getElem, Vector.getElem_ofFn]

/-- One byte of the output of `P` by the lanes after the eight rounds (R130). -/
theorem permP_getElem_lanes (path : Path) (p : Params) (t : Block) {j : Nat} (hj : j < 32) :
    (permP path p t)[j] =
      (((rounds path p 8 (lanesOf t))[j / 16])[j % 16] ^^^ t[j]) ^^^
      (((rounds path p 8 (lanesOf t))[j / 16 + 2])[j % 16] ^^^ t[32 + j]) := by
  have hlane : (32 + j) / 16 = j / 16 + 2 := by omega
  have hbyte : (32 + j) % 16 = j % 16 := by omega
  rw [permP_getElem path p t j hj, blockOfLanes_getElem, blockOfLanes_getElem]
  simp only [hlane, hbyte]

/-- `PERMUTE` of a 64-byte payload answers `P` of it (R138). -/
theorem exec_permute (s : State) {pay : List Byte} (hlen : pay.length = 64) :
    exec (.permute 0 0 pay) s = .next { s with
      output := s.output ++ [.ok (permP s.active s.params (blockOfBytes pay)).toList] } := by
  have hform : operandError formPermute 0 0 pay.length = none := by rw [hlen]; decide
  have hread : readPay pay 0 64 = pay := List.take_of_length_le hlen.le
  have heff : effectOf (.permute 0 0 pay) s =
      .ok (s, (permP s.active s.params (blockOfBytes pay)).toList) := by
    rw [effectOf, hread]
  exact exec_effect_ok (i := .permute 0 0 pay) (.inl (by simp [Instr.opcode])) hform heff

end Sys2Proof.Machine

namespace Sys2Proof.Proofs

open Sys2Proof.Machine

/-- Settles O38: the slot named by the handle is all that is written beside the response. -/
theorem slotCommandsLeaveTheRest : Obligations.SlotCommandsLeaveTheRest := by
  intro s t h arg pay i hi hexec
  have hmem : i ∈ [.update h arg pay, .finalize h arg pay, .destroy h arg pay] ++ [.dbgrd h arg pay] :=
    List.mem_append_left _ hi
  obtain ⟨c, r, hlocal⟩ := exec_handleCommand hmem s
  cases (hlocal s (.refl h s)).symm.trans hexec
  exact ⟨fun j hj => List.getElem?_set_ne hj.symm, rfl⟩

/-- Settles O39: each command does the same after the other, which leaves its view as it was, and writes to two slots
commute. -/
theorem slotCommandsCommute : Obligations.SlotCommandsCommute := by
  intro s h g a b pay qay i j hne hi hj
  obtain ⟨c, r, hlocal⟩ := exec_handleCommand hi s
  obtain ⟨d, q, hlocal'⟩ := exec_handleCommand hj s
  have hslots : (s.slots.set g.toNat d).set h.toNat c = (s.slots.set h.toNat c).set g.toNat d :=
    List.set_comm _ _ fun heq => hne (BitVec.eq_of_toNat_eq heq.symm)
  refine ⟨{ s with slots := (s.slots.set h.toNat c).set g.toNat d }, r, q,
    runCommands_handleCommands hne hlocal hlocal', ?_⟩
  rw [runCommands_handleCommands hne.symm hlocal' hlocal, hslots]

/-- Settles O40: none of these effects writes the state it reads. -/
theorem queriesChangeNoState : Obligations.QueriesChangeNoState := by
  intro s h a pay i hi
  refine exec_of_effect_keeps_state fun u out heff => ?_
  simp only [List.mem_cons, List.not_mem_nil, or_false] at hi
  rcases hi with rfl | rfl | rfl | rfl | rfl
  · exact dbgTarget_state heff
  · cases heff; rfl
  · cases heff; rfl
  · cases heff; rfl
  · cases (effectOf_setpath_keep h pay s).symm.trans heff; rfl

/-- Settles O54: the four lanes after the eight rounds, and `P` folded from them. -/
theorem permuteFoldsFeedForward : Obligations.PermuteFoldsFeedForward := by
  intro s pay hlen
  refine ⟨rounds s.active s.params 8 (lanesOf (blockOfBytes pay)), permP s.active s.params (blockOfBytes pay),
    exec_permute s hlen, fun i hi => ?_, fun j hj => ?_⟩
  · rw [rounds_eight_getElem s.active s.params _ hi, lanesOf_blockOfBytes_getElem pay hi]
  · rw [permP_getElem_lanes s.active s.params _ hj, blockOfBytes_getElem, blockOfBytes_getElem]

/-- Settles O5, by the command arm of `step`. -/
theorem stepRunsDecodedCommand : Obligations.StepRunsDecodedCommand := by
  intro s i rest hdecode
  simp only [step, hdecode, State.consume]

end Sys2Proof.Proofs

/-! PROOFS about packets and responses: the decoder accepts the packet of each command and nothing else
(`decode_eq_ok_iff`), a command meets its checks in the order of R96 (`checkOrder_packet`), and what a step does with a
framed packet is said once (`step_framed`). -/

namespace Sys2Proof

open Machine (leBytes leNat leNat_leBytes leBytes_leNat leNat_lt)

/-! ### A command and its packet -/

/-- The packet of a command as it is framed (R90, R91). -/
def Instr.packet (i : Instr) : Packet := ⟨i.opcode, i.hnd, i.arg, 0, i.pay⟩

/-- The encoder writes the fields of the packet (R90). -/
theorem encode_eq_packet (i : Instr) :
    encode i = [i.packet.opc, i.packet.hnd, i.packet.arg, i.packet.rsv] ++
      leBytes 8 i.packet.pay.length ++ i.packet.pay := rfl

theorem decode_packet (i : Instr) : decode i.packet = .ok i := by
  cases i <;> rfl

/-- Each row of the opcode map reads one `OPC` byte and `RSV = 0` (R95). -/
theorem eq_packet_of_decode {p : Packet} {i : Instr} (h : decode p = .ok i) : p = i.packet := by
  obtain ⟨opc, hnd, arg, rsv, pay⟩ := p
  unfold decode at h
  split at h
  next hrsv =>
    have row (o : Byte) (ho : opc.toNat = o.toNat) :
        (⟨opc, hnd, arg, rsv, pay⟩ : Packet) = ⟨o, hnd, arg, 0, pay⟩ := by
      rw [BitVec.eq_of_toNat_eq ho, show rsv = 0 from hrsv]
    split at h <;> cases h
    all_goals exact row _ ‹_›
  next => cases h

/-- The decoder accepts the packets of commands and nothing else (R95, R96 step 1). -/
theorem decode_eq_ok_iff {p : Packet} {i : Instr} : decode p = .ok i ↔ p = i.packet :=
  ⟨eq_packet_of_decode, fun h => h ▸ decode_packet i⟩

/-! ### Byte strings that are no packet yet -/

theorem frame_of_length_lt {bs : List Byte} (h : bs.length < 12) : frame bs = none := by
  unfold frame
  split
  · simp only [List.length_cons] at h
    omega
  · rfl

/-- A header whose payload has not arrived whole (R92). -/
theorem frame_of_partial_payload (opc hnd arg rsv : Byte) {len : Nat} {part : List Byte} (hlen : len < 2 ^ 64)
    (hpart : part.length < len) : frame ([opc, hnd, arg, rsv] ++ leBytes 8 len ++ part) = none := by
  have hn : leNat (leBytes 8 len) = len := by
    rw [leNat_leBytes]
    omega
  simp only [leBytes] at hn ⊢
  simp only [List.cons_append, List.nil_append, frame, hn]
  rw [if_neg (by omega)]

/-! ### The decoder on byte strings -/

theorem decodeBytes_encode_append (i : Instr) (rest : List Byte) (h : i.encodable) :
    decodeBytes (encode i ++ rest) = .command i rest := by
  have hframe : frame (encode i ++ rest) = some (i.packet, rest) := by
    rw [encode_eq_packet]
    exact frame_packet _ _ _ _ _ _ h
  simp only [decodeBytes, hframe, decode_packet]

theorem decodeBytes_eq_command {bs rest : List Byte} {i : Instr} (h : decodeBytes bs = .command i rest) :
    frame bs = some (i.packet, rest) := by
  unfold decodeBytes at h
  split at h
  · cases h
  next p rest' hframe =>
    split at h <;> cases h
    next hdecode => rw [hframe, eq_packet_of_decode hdecode]

/-! ### The word `CMD` and its mask -/

theorem leNat_injective {l m : List Byte} (hlen : l.length = m.length) (h : leNat l = leNat m) : l = m := by
  rw [← leBytes_leNat l, ← leBytes_leNat m, hlen, h]

theorem toNat_append_add {w v : Nat} (x : BitVec w) (y : BitVec v) : (x ++ y).toNat = 2 ^ v * x.toNat + y.toNat := by
  rw [BitVec.toNat_append, ← Nat.shiftLeft_add_eq_or_of_lt y.isLt, Nat.shiftLeft_eq, Nat.mul_comm]

/-- The four bytes of `CMD` side by side, the first byte the least significant (R90, R95). -/
theorem cmdWord_eq_append (a b c d : Byte) : BitVec.ofNat 32 (leNat [a, b, c, d]) = d ++ (c ++ (b ++ a)) := by
  apply BitVec.eq_of_toNat_eq
  simp only [toNat_append_add, BitVec.toNat_ofNat, leNat]
  omega

theorem cmdWord_injective {a b c d a' b' c' d' : Byte}
    (h : BitVec.ofNat 32 (leNat [a, b, c, d]) = BitVec.ofNat 32 (leNat [a', b', c', d'])) :
    [a, b, c, d] = [a', b', c', d'] := by
  have hlt (a b c d : Byte) : leNat [a, b, c, d] < 2 ^ 32 := (leNat_lt [a, b, c, d]).trans_eq (by norm_num)
  have hmod := congrArg BitVec.toNat h
  rw [BitVec.toNat_ofNat, BitVec.toNat_ofNat, Nat.mod_eq_of_lt (hlt ..), Nat.mod_eq_of_lt (hlt ..)] at hmod
  exact leNat_injective rfl hmod

/-- The mask of R95 keeps the bytes `OPC` and `RSV` of `CMD`. -/
theorem cmdWord_mask (opc hnd arg rsv : Byte) :
    BitVec.ofNat 32 (leNat [opc, hnd, arg, rsv]) &&& 0xFF0000FF#32 = BitVec.ofNat 32 (leNat [opc, 0, 0, rsv]) := by
  have hand : (rsv ++ (arg ++ (hnd ++ opc))) &&& (BitVec.allOnes 8 ++ (0#8 ++ (0#8 ++ BitVec.allOnes 8))) =
      rsv ++ (0#8 ++ (0#8 ++ opc)) := by
    simp only [BitVec.and_append, BitVec.and_allOnes, BitVec.and_zero]
  rw [cmdWord_eq_append, cmdWord_eq_append]
  exact hand

theorem setWidth_eq_cmdWord (o : Byte) : o.setWidth 32 = BitVec.ofNat 32 (leNat [o, 0, 0, 0]) := by
  simp [leNat, BitVec.ofNat_toNat]

/-- Mask and match (R95): the masked word is an opcode just when the `OPC` byte is that opcode and `RSV` is 0. -/
theorem cmdWord_mask_eq_opcode (opc hnd arg rsv o : Byte) :
    BitVec.ofNat 32 (leNat [opc, hnd, arg, rsv]) &&& 0xFF0000FF#32 = o.setWidth 32 ↔ opc = o ∧ rsv = 0 := by
  rw [cmdWord_mask, setWidth_eq_cmdWord]
  constructor
  · intro h
    simpa using cmdWord_injective h
  · rintro ⟨rfl, rfl⟩
    rfl

end Sys2Proof

namespace Sys2Proof.Machine

/-! ### The first check that a command fails -/

/-- The error of a computation that may fail, if it does. -/
def errorOf {α : Type} : Except Err α → Option Err
  | .error e => some e
  | .ok _ => none

theorem errorOf_eq_some {α : Type} {x : Except Err α} {e : Err} : errorOf x = some e ↔ x = .error e := by
  cases x <;> simp [errorOf]

theorem errorOf_eq_none {α : Type} {x : Except Err α} : errorOf x = none ↔ ∃ r, x = .ok r := by
  cases x <;> simp [errorOf]

/-- Step 1 of R96 as far as the meaning of a command makes it: the gate of `DBGRD` (R185). -/
def gateError (i : Instr) (s : State) : Option Err :=
  if i.opcode = 0x0B ∧ s.params.testHookEn = false then some .illegal else none

theorem gateError_eq_none {i : Instr} {s : State} :
    gateError i s = none ↔ i.opcode ≠ 0x0B ∨ s.params.testHookEn = true := by
  simp [gateError, or_iff_not_imp_left]

theorem gateError_or (i : Instr) (s : State) (later : Option Err) :
    (gateError i s).or later = if i.opcode = 0x0B ∧ s.params.testHookEn = false then some .illegal else later := by
  unfold gateError
  split <;> rfl

/-- The first check of R96 that a command fails: the gate, the operands, the checks of its own. -/
def commandError (i : Instr) (s : State) : Option Err :=
  (gateError i s).or ((operandError (formOf i) i.hnd i.arg i.pay.length).or (errorOf (effectOf i s)))

/-- A command answers the first check it fails. -/
theorem exec_of_commandError_some {i : Instr} {s : State} {e : Err} (h : commandError i s = some e) :
    exec i s = .next (raise e s) := by
  simp only [commandError, Option.or_eq_some_iff, gateError_eq_none, errorOf_eq_some] at h
  rcases h with hgate | ⟨hopen, hform | ⟨hform, heff⟩⟩
  · obtain ⟨⟨hopc, hhook⟩, he⟩ := Option.ite_none_right_eq_some.mp hgate
    cases he
    exact exec_gated hopc hhook
  · rw [exec_effect i s hopen, commandState_operandError hform]
  · exact exec_effect_error hopen hform heff

/-- A command that fails no check does what its effect says. -/
theorem exec_of_commandError_none {i : Instr} {s : State} (h : commandError i s = none) :
    ∃ u out, exec i s = .next (respond out u) ∧ effectOf i s = .ok (u, out) := by
  simp only [commandError, Option.or_eq_none_iff, gateError_eq_none, errorOf_eq_none] at h
  obtain ⟨hopen, hform, ⟨u, out⟩, heff⟩ := h
  exact ⟨u, out, exec_effect_ok hopen hform heff, heff⟩

/-! ### The checks of R96, command by command -/

theorem toNat_pos_iff (b : Byte) : 0 < b.toNat ↔ b ≠ 0 := by
  rw [Nat.pos_iff_ne_zero, ne_eq, ne_eq, ← BitVec.toNat_inj]
  rfl

/-- Steps 2 and 3 of R96, one check at a time, before the later ones. -/
theorem operandError_or (f : OperandForm) (hnd arg : Byte) (len : Nat) (later : Option Err) :
    (operandError f hnd arg len).or later =
      if f.takesHandle = false ∧ hnd ≠ 0 then some .illegal
      else if f.maxArg < arg.toNat then some .illegal
      else if f.len.accepts len = false then some .badLen
      else later := by
  unfold operandError
  by_cases hhnd : f.takesHandle = false ∧ hnd ≠ 0
  · rw [if_pos (.inl hhnd), if_pos hhnd, Option.some_or]
  by_cases harg : f.maxArg < arg.toNat
  · rw [if_pos (.inr harg), if_neg hhnd, if_pos harg, Option.some_or]
  rw [if_neg (not_or.mpr ⟨hhnd, harg⟩), if_neg hhnd, if_neg harg]
  split <;> rfl

/-- Steps 4 and 5 for `UPDATE` and `FINALIZE` (R96, R202). -/
theorem errorOf_activeSlot (s : State) (h : Byte) :
    errorOf (s.activeSlot h) =
      if s.slots.length ≤ h.toNat then some .badHandle
      else if s.slots[h.toNat]?.map Ctx.phase = some .free then some .badHandle
      else if s.slots[h.toNat]?.map Ctx.phase = some .finalized then some .finalized
      else none := by
  unfold State.activeSlot State.slot?
  cases hslot : s.slots[h.toNat]? with
  | none => rw [if_pos (List.getElem?_eq_none_iff.mp hslot)]; rfl
  | some c =>
    obtain ⟨hlt, -⟩ := List.getElem?_eq_some_iff.mp hslot
    rw [if_neg (Nat.not_le.mpr hlt)]
    cases hphase : c.phase <;> simp [errorOf, hphase]

/-- Step 4 for `DESTROY` (R96, R202). -/
theorem errorOf_takenSlot (s : State) (h : Byte) :
    errorOf (s.takenSlot h) =
      if s.slots.length ≤ h.toNat then some .badHandle
      else if s.slots[h.toNat]?.map Ctx.phase = some .free then some .badHandle
      else none := by
  unfold State.takenSlot State.slot?
  cases hslot : s.slots[h.toNat]? with
  | none => rw [if_pos (List.getElem?_eq_none_iff.mp hslot)]; rfl
  | some c =>
    obtain ⟨hlt, -⟩ := List.getElem?_eq_some_iff.mp hslot
    rw [if_neg (Nat.not_le.mpr hlt)]
    cases hphase : c.phase <;> simp [errorOf, hphase]

/-- Step 4 for `DBGRD` (R71, R96). -/
theorem errorOf_dbgTarget (s : State) (h : Byte) :
    errorOf (dbgTarget s h) =
      if s.slots.length ≤ h.toNat ∧ h ≠ 0xFE ∧ h ≠ 0xFF then some .badHandle else none := by
  unfold dbgTarget State.slot?
  by_cases hglobal : h = 0xFE
  · simp [hglobal, errorOf]
  by_cases hscratch : h = 0xFF
  · simp [hscratch, errorOf]
  rw [if_neg hglobal, if_neg hscratch]
  cases hslot : s.slots[h.toNat]? with
  | none => rw [if_pos ⟨List.getElem?_eq_none_iff.mp hslot, hglobal, hscratch⟩]; rfl
  | some c =>
    obtain ⟨hlt, -⟩ := List.getElem?_eq_some_iff.mp hslot
    rw [if_neg fun hle => Nat.not_le.mpr hlt hle.1]
    rfl

theorem errorOf_effectOf_update (hnd arg : Byte) (pay : List Byte) (s : State) :
    errorOf (effectOf (.update hnd arg pay) s) = errorOf (s.activeSlot hnd) := by
  simp only [effectOf]
  cases s.activeSlot hnd <;> rfl

theorem errorOf_effectOf_finalize (hnd arg : Byte) (pay : List Byte) (s : State) :
    errorOf (effectOf (.finalize hnd arg pay) s) = errorOf (s.activeSlot hnd) := by
  simp only [effectOf]
  cases s.activeSlot hnd <;> rfl

theorem errorOf_effectOf_destroy (hnd arg : Byte) (pay : List Byte) (s : State) :
    errorOf (effectOf (.destroy hnd arg pay) s) = errorOf (s.takenSlot hnd) := by
  simp only [effectOf]
  cases s.takenSlot hnd <;> rfl

/-- Step 5 for `CREATE` (R96, R156). -/
theorem errorOf_effectOf_create (hnd arg : Byte) (pay : List Byte) (s : State) :
    errorOf (effectOf (.create hnd arg pay) s) =
      if ∀ c ∈ s.slots, c.phase ≠ .free then some .noContext else none := by
  simp only [effectOf, ← smallestFree_none]
  cases s.smallestFree <;> rfl

/-- `SETPATH` names the mode `ACCEL` by the value 2 alone (R184). -/
theorem forceOfArg_eq_accel {arg : Byte} : forceOfArg arg = some .accel ↔ arg = 2 := by
  unfold forceOfArg
  rw [← BitVec.toNat_inj]
  split <;> simp_all

/-- Step 5 for `SETPATH` (R96, R184). -/
theorem errorOf_effectOf_setpath (hnd arg : Byte) (pay : List Byte) (s : State) :
    errorOf (effectOf (.setpath hnd arg pay) s) =
      if arg = 2 ∧ s.params.hwAccelPresent = false then some .unsupported else none := by
  simp only [effectOf, ← forceOfArg_eq_accel]
  cases forceOfArg arg with
  | none => rfl
  | some m =>
    simp only [Option.some.injEq]
    split <;> rfl

/-- The order of R96 on a packet of a command is the order in which the command meets its checks. -/
theorem checkOrder_packet (i : Instr) (s : State) : checkOrder s i.packet = commandError i s := by
  rw [commandError, gateError_or, operandError_or]
  cases i
  all_goals
    simp only [checkOrder, Instr.packet, Instr.opcode, Instr.hnd, Instr.arg, Instr.pay, formOf, formHash, formCreate,
      formUpdate, formFinalize, formDestroy, formPermute, formHasaccel, formHaswide, formParallel, formSetpath,
      formDbgrd, LenForm.accepts, toNat_pos_iff]
  case hash | permute | hasaccel | haswide | parallel => simp [effectOf, errorOf]
  case create => simp [errorOf_effectOf_create]
  case update => simp [errorOf_effectOf_update, errorOf_activeSlot]
  case finalize => simp [errorOf_effectOf_finalize, errorOf_activeSlot]
  case destroy => simp [errorOf_effectOf_destroy, errorOf_takenSlot]
  case setpath => simp [errorOf_effectOf_setpath]
  case dbgrd => simp [effectOf, errorOf_dbgTarget]

/-- A packet that names no command fails step 1 of R96. -/
theorem checkOrder_of_decode_error {p : Packet} {e : DecodeError} (s : State) (h : decode p = .error e) :
    checkOrder s p = some .illegal := by
  refine if_pos ?_
  unfold decode at h
  split at h
  · split at h <;> cases h
    have hopc : p.opc.toNat = 0 ∨ 0x0B < p.opc.toNat := by
      simp only [imp_false] at *
      omega
    exact .inr (hopc.imp_right .inl)
  next hrsv => exact .inl hrsv

/-! ### Steps on a framed packet -/

/-- What a step does with a framed packet: the packet is consumed, and the first failed check is answered, or what the
effect of the command gives if there is none (R92, R96, R205). -/
theorem step_framed {s : State} {p : Packet} {rest : List Byte} (h : frame s.input = some (p, rest)) :
    (∃ e, checkOrder s p = some e ∧ step s = .next (raise e (s.consume rest))) ∨
    (checkOrder s p = none ∧ ∃ i u out, step s = .next (respond out u) ∧
      effectOf i (s.consume rest) = .ok (u, out)) := by
  cases hdecode : decode p with
  | error e =>
    refine .inl ⟨.illegal, checkOrder_of_decode_error s hdecode, ?_⟩
    simp only [step, decodeBytes, h, hdecode]
  | ok i =>
    have hstep : step s = exec i (s.consume rest) := by simp only [step, decodeBytes, h, hdecode]
    have hcheck : checkOrder s p = commandError i (s.consume rest) := by
      rw [eq_packet_of_decode hdecode, ← checkOrder_packet]
      rfl
    rw [hstep, hcheck]
    cases herr : commandError i (s.consume rest) with
    | some e => exact .inl ⟨e, rfl, exec_of_commandError_some herr⟩
    | none =>
      obtain ⟨u, out, hexec, heff⟩ := exec_of_commandError_none herr
      exact .inr ⟨rfl, i, u, out, hexec, heff⟩

/-- The response to a framed packet, and what the step leaves at the two ends of the command interface. -/
theorem step_framed_response {s : State} {p : Packet} {rest : List Byte} (h : frame s.input = some (p, rest)) :
    ∃ t r, step s = .next t ∧ t.input = rest ∧ t.output = s.output ++ [r] ∧ r.Fits ∧
      ∀ e, checkOrder s p = some e → r = .err e := by
  rcases step_framed h with ⟨e, hcheck, hstep⟩ | ⟨hcheck, i, u, out, hstep, heff⟩
  · refine ⟨_, .err e, hstep, rfl, rfl, trivial, fun d hd => ?_⟩
    rw [Option.some.inj (hcheck.symm.trans hd)]
  · obtain ⟨hinput, houtput, -, -, hlen, -⟩ := effectOf_ok heff
    have hle := okLength_le i
    refine ⟨_, .ok out, hstep, hinput, ?_, ?_, fun d hd => ?_⟩
    · rw [respond_output, houtput, consume_output]
    · show out.length ≤ 255
      omega
    · cases hcheck.symm.trans hd

/-- While no whole packet has arrived the step is idle (R92, R215). -/
theorem step_of_frame_none {s : State} (h : frame s.input = none) : step s = .next s := by
  simp only [step, decodeBytes, h]

theorem step_total (s : State) : ∃ t, step s = .next t := by
  cases h : frame s.input with
  | none => exact ⟨s, step_of_frame_none h⟩
  | some r =>
    obtain ⟨t, -, hstep, -⟩ := step_framed_response h
    exact ⟨t, hstep⟩

end Sys2Proof.Machine

namespace Sys2Proof.Proofs

open Sys2Proof.Machine

/-- Settles O2: the encoder's bytes frame as the command's packet, which decodes to the command. -/
theorem decodeOfEncode : Obligations.DecodeOfEncode :=
  decodeBytes_encode_append

/-- Settles O3: the framed packet is the command's own, and framing reads nothing but that packet. -/
theorem encodeOfDecode : Obligations.EncodeOfDecode := by
  intro i bs rest h
  exact frame_some (decodeBytes_eq_command h)

/-- Settles O4: the mask keeps the two bytes of `CMD` that the decoder compares; the other fields are the operands. -/
theorem decoderFollowsMaskAndMatch : Obligations.DecoderFollowsMaskAndMatch := by
  rintro ⟨opc, hnd, arg, rsv, pay⟩ i
  rw [decode_eq_ok_iff, cmdWord_mask_eq_opcode, Instr.packet, Packet.mk.injEq]
  tauto

/-- Settles O1: each byte string is what the encoder writes for the command. -/
theorem specPacketsDecode : Obligations.SpecPacketsDecode :=
  ⟨decodeBytes_encode_append (.hash 0 0 [0x61, 0x62, 0x63]) [] (by decide),
   decodeBytes_encode_append (.create 0 0 []) [] (by decide),
   decodeBytes_encode_append (.update 1 0 [0x61, 0x62, 0x63]) [] (by decide),
   decodeBytes_encode_append (.finalize 7 0 []) [] (by decide),
   decodeBytes_encode_append (.destroy 0 0 []) [] (by decide),
   decodeBytes_encode_append (.permute 0 0 (zeros 64)) [] (by decide),
   decodeBytes_encode_append (.hasaccel 0 0 []) [] (by decide),
   decodeBytes_encode_append (.haswide 0 0 []) [] (by decide),
   decodeBytes_encode_append (.parallel 0 0 []) [] (by decide),
   decodeBytes_encode_append (.setpath 0 3 []) [] (by decide),
   decodeBytes_encode_append (.dbgrd 0xFE 0 []) [] (by decide)⟩

/-- Settles O6: a whole packet by `step_framed_response`; less than one frames as nothing. -/
theorem framingIsIndependentOfValidity : Obligations.FramingIsIndependentOfValidity := by
  refine ⟨fun s opc hnd arg rsv pay rest hlen hinput => ?_, fun s hshort => ?_,
    fun s opc hnd arg rsv len part hlen hpart hinput => ?_⟩
  · have hframe : frame s.input = some (⟨opc, hnd, arg, rsv, pay⟩, rest) := by
      rw [hinput]
      exact frame_packet opc hnd arg rsv pay rest hlen
    obtain ⟨t, r, hstep, hin, hout, -, herr⟩ := step_framed_response hframe
    exact ⟨t, r, hstep, hin, hout, herr⟩
  · exact step_of_frame_none (frame_of_length_lt hshort)
  · refine step_of_frame_none ?_
    rw [hinput]
    exact frame_of_partial_payload opc hnd arg rsv hlen hpart

/-- Settles O7, by the two forms of a step on a framed packet. -/
theorem statusFollowsCheckOrder : Obligations.StatusFollowsCheckOrder := by
  intro s p rest hframe
  rcases step_framed hframe with ⟨e, hcheck, hstep⟩ | ⟨hcheck, i, u, out, hstep, heff⟩
  · rw [hcheck]
    exact hstep
  · rw [hcheck]
    obtain ⟨-, houtput, -⟩ := effectOf_ok heff
    exact ⟨_, out, hstep, by rw [respond_output, houtput, consume_output]⟩

/-- Settles O8: the response fits its `RLEN`, and the codes of the errors are those of R99. -/
theorem oneResponsePerPacket : Obligations.OneResponsePerPacket := by
  intro s p rest hframe
  obtain ⟨t, r, hstep, -, hout, hfits, -⟩ := step_framed_response hframe
  have hbytes : t.outputBytes = s.outputBytes ++ r.bytes := by
    rw [State.outputBytes, hout, List.flatMap_append, List.flatMap_singleton, State.outputBytes]
  cases r with
  | ok out => exact ⟨t, .ok out, 0x00, out, hstep, hout, hbytes, rfl, hfits, fun h => absurd rfl h, rfl, rfl⟩
  | err e =>
    refine ⟨t, .err e, e.code, [], hstep, hout, hbytes, rfl, Nat.zero_le _, fun _ => rfl, ?_⟩
    cases e <;> rfl

/-- Settles O9: a step is idle or answers the framed packet. -/
theorem engineNeverStops : Obligations.EngineNeverStops :=
  step_total

/-- Settles O53: an `OK` response is the one the effect of the command gives. -/
theorem okResponseLengths : Obligations.OkResponseLengths := by
  intro i s t out hexec hout
  obtain ⟨t', ht, ⟨e, rfl⟩ | ⟨u, payload, rfl, heff⟩⟩ := exec_cases i s
  · cases ht.symm.trans hexec
    cases List.append_cancel_left hout
  · cases ht.symm.trans hexec
    obtain ⟨-, hu, -, -, hlen, -⟩ := effectOf_ok heff
    rw [respond_output, hu] at hout
    cases List.append_cancel_left hout
    exact hlen

end Sys2Proof.Proofs

/-! PROOFS about the hashing commands and the capability queries on the states they complete in. Chunk invariance (R161)
is `Ctx.SameMessage`: what `Append` and `Finish` do depends on the message a context holds, and appending chunk by chunk
leaves the same message as appending them at once. -/

namespace Sys2Proof.Machine

/-! ### Contexts that hold the same message -/

/-- Two contexts with the same message behind them: they differ at most in stale bytes and in the phase (R23). -/
structure Ctx.SameMessage (c d : Ctx) : Prop where
  hashState : c.hashState = d.hashState
  validBytes : c.validBytes = d.validBytes
  tot : c.tot = d.tot

namespace Ctx.SameMessage

variable {c d e : Ctx} (path : Path) (p : Params)

theorem trans (h : c.SameMessage d) (h' : d.SameMessage e) : c.SameMessage e :=
  ⟨h.hashState.trans h'.hashState, h.validBytes.trans h'.validBytes, h.tot.trans h'.tot⟩

theorem cnt_eq (h : c.SameMessage d) : c.cnt.toNat = d.cnt.toNat := by
  rw [← validBytes_length, h.validBytes, validBytes_length]

theorem append (h : c.SameMessage d) (pay : List Byte) :
    (c.append path p pay).SameMessage (d.append path p pay) := by
  obtain ⟨chash, cvalid, -, ctot, -⟩ := append_spec path p pay c
  obtain ⟨dhash, dvalid, -, dtot, -⟩ := append_spec path p pay d
  refine ⟨?_, ?_, ?_⟩
  · rw [chash, dhash, h.cnt_eq, h.validBytes, h.hashState]
  · rw [cvalid, dvalid, h.cnt_eq, h.validBytes]
  · rw [ctot, dtot, h.tot]

theorem finish (h : c.SameMessage d) : c.finish path p = d.finish path p := by
  rw [finish_spec, finish_spec, h.hashState, h.validBytes, h.tot]

end Ctx.SameMessage

section Chunks
variable (path : Path) (p : Params)

theorem sameMessage_append_nil (c : Ctx) : c.SameMessage (c.append path p []) := by
  obtain ⟨hhash, hvalid, -, htot, -⟩ := append_spec path p [] c
  have hblocks : c.cnt.toNat / 64 = 0 := Nat.div_eq_of_lt (cnt_lt c)
  constructor
  · rw [hhash, List.length_nil, Nat.add_zero, hblocks, absorbBytes]
  · rw [hvalid, List.length_nil, Nat.add_zero, hblocks, Nat.mul_zero, List.drop_zero, List.append_nil]
  · rw [htot, List.length_nil, BitVec.add_zero]

/-- The context after one `Append` for each chunk (R103, R153). -/
def Ctx.appendChunks (chunks : List (List Byte)) (c : Ctx) : Ctx :=
  chunks.foldl (fun d pay => d.append path p pay) c

theorem appendChunks_phase (chunks : List (List Byte)) (c : Ctx) :
    (c.appendChunks path p chunks).phase = c.phase := by
  induction chunks generalizing c with
  | nil => rfl
  | cons a chunks ih =>
    obtain ⟨-, -, -, -, hphase⟩ := append_spec path p a c
    rw [← hphase]
    exact ih (c.append path p a)

/-- Chunk by chunk or at once, the context holds the same message (R153 note (e), R161). -/
theorem appendChunks_sameMessage (chunks : List (List Byte)) (c : Ctx) :
    (c.appendChunks path p chunks).SameMessage (c.append path p chunks.flatten) := by
  induction chunks generalizing c with
  | nil => exact sameMessage_append_nil path p c
  | cons a chunks ih =>
    obtain ⟨hhash, hvalid, -, htot, -⟩ := append_append path p a chunks.flatten c
    exact (ih (c.append path p a)).trans ⟨hhash, hvalid, htot⟩

end Chunks

/-- What `CREATE` leaves in the slot it takes (R152, R156). -/
abbrev Ctx.opened (p : Params) : Ctx := { Ctx.zero.init p with phase := .active }

/-- `HASH` of the whole in the scratch context and the chunks in an opened slot give one digest (R160, R161). -/
theorem finish_appendChunks_opened (s : State) (chunks : List (List Byte)) :
    ((Ctx.opened s.params).appendChunks s.active s.params chunks).finish s.active s.params =
      hashDigest s chunks.flatten := by
  have hstart : (Ctx.opened s.params).SameMessage (s.scr.init s.params) := ⟨rfl, rfl, rfl⟩
  have hwhole := hstart.append s.active s.params chunks.flatten
  exact ((appendChunks_sameMessage s.active s.params chunks _).trans hwhole).finish s.active s.params

/-- Under the invariant a `FREE` slot is all zero (R27(b)). -/
theorem eq_zero_of_free {c : Ctx} (hc : c.Inv) (hfree : c.phase = .free) : c = Ctx.zero := by
  obtain ⟨hclear, -⟩ := hc
  rw [← hclear (by rw [hfree]; decide), ← hfree]

/-! ### The hashing commands on a slot they can work on -/

/-- `FINALIZE` of an `ACTIVE` slot answers `Finish` and clears the slot (R158, R163). -/
theorem exec_finalize_active {s : State} {h : Byte} {c : Ctx} (hc : s.slots[h.toNat]? = some c)
    (hactive : c.phase = .active) :
    exec (.finalize h 0 []) s = .next { s with
      slots := s.slots.set h.toNat { Ctx.zero with phase := .finalized }
      output := s.output ++ [.ok (c.finish s.active s.params).toList] } := by
  have hform : operandError formFinalize h 0 0 = none := operandError_none.mpr ⟨by simp [formFinalize], rfl⟩
  have heff : effectOf (.finalize h 0 []) s =
      .ok (s.setSlot h.toNat { c.clear with phase := .finalized }, (c.finish s.active s.params).toList) := by
    simp only [effectOf, activeSlot_ok.mpr ⟨hc, hactive⟩]
  exact exec_effect_ok (i := .finalize h 0 []) (.inl (by simp [Instr.opcode])) hform heff

/-- `DESTROY` of a slot that is taken clears and frees it (R159, R163). -/
theorem exec_destroy_taken {s : State} {h : Byte} {c : Ctx} (hc : s.slots[h.toNat]? = some c)
    (htaken : c.phase ≠ .free) :
    exec (.destroy h 0 []) s = .next { s with
      slots := s.slots.set h.toNat Ctx.zero
      output := s.output ++ [.ok []] } := by
  have hform : operandError formDestroy h 0 0 = none := operandError_none.mpr ⟨by simp [formDestroy], rfl⟩
  have heff : effectOf (.destroy h 0 []) s = .ok (s.setSlot h.toNat { c.clear with phase := .free }, []) := by
    simp only [effectOf, takenSlot_ok.mpr ⟨hc, htaken⟩]
  exact exec_effect_ok (i := .destroy h 0 []) (.inl (by simp [Instr.opcode])) hform heff

/-- `CREATE` on the smallest `FREE` slot (R156). -/
theorem exec_create_smallestFree {s : State} {h : Nat} (hfree : s.smallestFree = some h) :
    exec (.create 0 0 []) s = .next { s with
      slots := s.slots.set h (Ctx.opened s.params)
      output := s.output ++ [.ok [BitVec.ofNat 8 h]] } := by
  have heff : effectOf (.create 0 0 []) s =
      .ok (s.setSlot h (Ctx.opened s.params), [BitVec.ofNat 8 h]) := by
    simp only [effectOf, hfree]
  exact exec_effect_ok (i := .create 0 0 []) (.inl (by decide)) (by decide) heff

/-- `HASH` of every message (R160). -/
theorem exec_hash (s : State) (pay : List Byte) :
    exec (.hash 0 0 pay) s = .next { s with
      scr := s.scr.clear
      output := s.output ++ [.ok (hashDigest s pay).toList] } := by
  have hform : operandError formHash 0 0 pay.length = none := operandError_none.mpr ⟨by simp [formHash], rfl⟩
  exact exec_effect_ok (i := .hash 0 0 pay) (.inl (by simp [Instr.opcode])) hform rfl

/-! ### Streaming -/

theorem runCommands_cons {i : Instr} {s t : State} (is : List Instr) (h : exec i s = .next t) :
    runCommands (i :: is) s = runCommands is t := by
  simp only [runCommands, h]

/-- One `UPDATE` for each chunk, before further commands (R103, R157). -/
theorem runCommands_updates (h : Byte) (chunks : List (List Byte)) (is : List Instr) {s : State} {c : Ctx}
    (hc : s.slots[h.toNat]? = some c) (hactive : c.phase = .active) :
    runCommands (chunks.map (fun pay => .update h 0 pay) ++ is) s =
      runCommands is { s with
        slots := s.slots.set h.toNat (c.appendChunks s.active s.params chunks)
        output := s.output ++ chunks.map fun _ => .ok [] } := by
  obtain ⟨hlt, hget⟩ := List.getElem?_eq_some_iff.mp hc
  induction chunks generalizing s c with
  | nil =>
    have hset : s.slots.set h.toNat c = s.slots := by rw [← hget, List.set_getElem_self]
    simp only [List.map_nil, List.nil_append, List.append_nil, Ctx.appendChunks, List.foldl_nil, hset]
  | cons a chunks ih =>
    obtain ⟨-, -, -, -, hphase⟩ := append_spec s.active s.params a c
    rw [List.map_cons, List.cons_append, runCommands_cons _ (exec_update_active a hc hactive),
      ih (List.getElem?_set_self hlt) (hphase.trans hactive) (by simpa using hlt) (by simp)]
    simp only [List.set_set, List.append_assoc, List.map_cons, List.singleton_append, Ctx.appendChunks,
      List.foldl_cons]

/-- Streaming on a slot that `CREATE` takes gives the digest of the slot's context and frees the slot (R103). -/
theorem runCommands_streaming {s : State} {h : Byte} (hfree : s.smallestFree = some h.toNat)
    (chunks : List (List Byte)) :
    runCommands (streamingCommands h chunks) s = .next { s with
      slots := s.slots.set h.toNat Ctx.zero
      output := s.output ++ [.ok [h]] ++ chunks.map (fun _ => .ok []) ++
        [.ok (hashDigest s chunks.flatten).toList, .ok []] } := by
  obtain ⟨c, hc, -, -⟩ := smallestFree_some hfree
  obtain ⟨hlt, -⟩ := List.getElem?_eq_some_iff.mp hc
  have hslot (d : Ctx) : (s.slots.set h.toNat d)[h.toNat]? = some d := List.getElem?_set_self hlt
  rw [streamingCommands, List.append_assoc, List.singleton_append, runCommands_cons _ (exec_create_smallestFree hfree),
    runCommands_updates h chunks _ (hslot _) rfl]
  simp only [List.set_set]
  rw [runCommands_cons _ (exec_finalize_active (hslot _) (appendChunks_phase ..))]
  simp only [List.set_set]
  rw [finish_appendChunks_opened s, runCommands_cons _ (exec_destroy_taken (hslot _) (by decide))]
  simp only [runCommands, List.set_set, BitVec.ofNat_toNat, BitVec.setWidth_eq, List.append_assoc, List.cons_append,
    List.nil_append]

/-! ### `PARALLEL` -/

/-- The four bytes of `LE32`, bit by bit (R11, R183). -/
theorem leBytes_four (v : BitVec 32) :
    leBytes 4 v.toNat = [v.extractLsb' 0 8, v.extractLsb' 8 8, v.extractLsb' 16 8, v.extractLsb' 24 8] := by
  simp only [leBytes, BitVec.extractLsb', Nat.shiftRight_eq_div_pow, Nat.div_div_eq_div_mul]
  norm_num

end Sys2Proof.Machine

namespace Sys2Proof.Proofs

open Sys2Proof.Machine

/-- Settles O27, by what `Append` does to the message bytes (`append_spec`). -/
theorem updateAppendsMessageBytes : Obligations.UpdateAppendsMessageBytes := by
  intro s h c pay hc hactive
  obtain ⟨hhash, hvalid, hcnt, htot, hphase⟩ := append_spec s.active s.params pay c
  refine ⟨_, exec_update_active pay hc hactive, hhash, hvalid, hcnt, ?_, hphase.trans hactive⟩
  rw [htot, BitVec.toNat_add, BitVec.toNat_ofNat, Nat.add_mod_mod]

/-- Settles O31, by what `Finish` returns on the bytes held (`finish_spec`). -/
theorem finalizeSqueezesAndClears : Obligations.FinalizeSqueezesAndClears := by
  intro s h c hc hactive
  rw [exec_finalize_active hc hactive, finish_spec]

/-- Settles O32: neither `ACTIVE` nor `FINALIZED` is `FREE`. -/
theorem destroyFreesSlot : Obligations.DestroyFreesSlot :=
  fun _ _ _ hc htaken => exec_destroy_taken hc htaken

/-- Settles O23, by the effect of `PERMUTE` on 64 bytes. -/
theorem permuteRespondsP : Obligations.PermuteRespondsP :=
  fun s _ hlen => exec_permute s hlen

/-- Settles O44: bit 0 of `CAP` is the parameter. -/
theorem hasaccelReportsPresence : Obligations.HasaccelReportsPresence := by
  intro s
  rw [exec_effect_ok (i := .hasaccel 0 0 []) (.inl (by decide)) (by decide) rfl, cap_getLsbD_zero]
  rfl

/-- Settles O45: bit 1 of `CAP` is the parameter. -/
theorem haswideReportsPresence : Obligations.HaswideReportsPresence := by
  intro s
  rw [exec_effect_ok (i := .haswide 0 0 []) (.inl (by decide)) (by decide) rfl, cap_getLsbD_one]
  rfl

/-- Settles O46: `LE32` of `PARH`, byte by byte. -/
theorem parallelReportsHint : Obligations.ParallelReportsHint := by
  intro s
  rw [exec_effect_ok (i := .parallel 0 0 []) (.inl (by decide)) (by decide) rfl, leBytes_four]
  rfl

/-- Settles O34: after the chunks the slot holds the message that `HASH` puts into the scratch context, and under the
invariant both contexts are all zero before and after. -/
theorem chunkInvariance : Obligations.ChunkInvariance := by
  intro s h chunks hinv hfree
  obtain ⟨-, hmax, hslots, hscr, -⟩ := hinv
  obtain ⟨c, hc, hphase, -⟩ := smallestFree_some hfree
  obtain ⟨hlt, hget⟩ := List.getElem?_eq_some_iff.mp hc
  have hbyte : (BitVec.ofNat 8 h).toNat = h := by
    rw [BitVec.toNat_ofNat]
    omega
  have hback : s.slots.set h Ctx.zero = s.slots := by
    rw [← eq_zero_of_free (hslots c (List.mem_of_getElem? hc)) hphase, ← hget, List.set_getElem_self]
  have hclear : s.scr.clear = s.scr := by rw [hscr]; rfl
  refine ⟨hashDigest s chunks.flatten, ?_, ?_⟩
  · rw [exec_hash, hclear]
  · rw [runCommands_streaming (by rw [hfree, hbyte]), hbyte, hback]

end Sys2Proof.Proofs

/-! PROOFS about the Permutation Core: the S-box and the AES step at the known answers; and lane separation
(R132(c), R166), which is the relation `LanesAgree`: blocks that agree in lanes `i` and `i + 2` still do after `Absorb`,
and `P` of them agrees in lane `i`. -/

namespace Sys2Proof.Machine

/-! ### The S-box and the AES step -/

/-- At each of the 255 nonzero bytes `v^254` is the inverse of `v` (R124). -/
theorem gfMul_gfInv : ∀ v : Byte, v ≠ 0 → gfMul v (gfInv v) = 1 := by decide +kernel

/-- The factors 2, 3, 1, 1 of `MixColumns` add up to 1 (R125). -/
theorem xtime_mul3_cancel (v : Byte) : xtime v ^^^ mul3 v ^^^ v ^^^ v = v := by
  rw [mul3, ← BitVec.xor_assoc (xtime v), BitVec.xor_self, BitVec.zero_xor, BitVec.xor_self, BitVec.zero_xor]

/-- A column of equal bytes is unchanged by `MixColumns` (R126). -/
theorem mixColumns_equal_column (b : Lane) {c : Nat} (hc : c < 4) {v : Byte}
    (hcol : ∀ (r : Nat) (_ : r < 4), b[4 * c + r] = v) {r : Nat} (hr : r < 4) : (mixColumns b)[4 * c + r] = v := by
  have hcolumn : (4 * c + r) / 4 = c := by omega
  rw [mixColumns_getElem]
  simp only [hcolumn, hcol _ (Nat.mod_lt _ (by decide)), xtime_mul3_cancel]

section EqualBytes
variable (path : Path) (v : Byte)

theorem shiftRows_replicate : shiftRows (Vector.replicate 16 v) = Vector.replicate 16 v := by
  ext1 j hj
  rw [shiftRows_getElem, Vector.getElem_replicate, Vector.getElem_replicate]

theorem subBytes_replicate : subBytes path (Vector.replicate 16 v) = Vector.replicate 16 (sboxTable v) := by
  ext1 j hj
  rw [subBytes_getElem, Vector.getElem_replicate, Vector.getElem_replicate, subByte_eq_sboxTable]

theorem mixColumns_replicate : mixColumns (Vector.replicate 16 v) = Vector.replicate 16 v := by
  ext1 j hj
  have hsplit : 4 * (j / 4) + j % 4 = j := Nat.div_add_mod j 4
  have hcol := mixColumns_equal_column (Vector.replicate 16 v) (c := j / 4) (v := v) (by omega)
    (fun _ _ => Vector.getElem_replicate _) (r := j % 4) (by omega)
  simp only [hsplit] at hcol
  rw [hcol, Vector.getElem_replicate]

/-- A lane of equal bytes under the zero key (R126). -/
theorem aesRound_replicate :
    aesRound path (Vector.replicate 16 v) (zeroBytes 16) = Vector.replicate 16 (sboxTable v) := by
  ext1 j hj
  rw [aesRound_getElem, shiftRows_replicate, subBytes_replicate, mixColumns_replicate, zeroBytes_getElem,
    BitVec.ofNat_eq_ofNat, BitVec.xor_zero]

end EqualBytes

/-! ### Lanes that agree -/

/-- Two blocks agree in lanes `i` and `i + 2` (R132(d)). -/
def LanesAgree (i : Nat) (b d : Block) : Prop := ∀ (j : Nat) (_ : j < 64), (j / 16) % 2 = i → b[j] = d[j]

/-- Two byte strings agree in lanes `i` and `i + 2` of every block of 64 bytes (R166). -/
def BytesAgree (i : Nat) (m n : List Byte) : Prop := ∀ j : Nat, (j / 16) % 2 = i → m[j]? = n[j]?

theorem lanesAgree_blockOfLanes {i : Nat} (hi : i < 2) {x y : Vector Lane 4} (hlow : x[i] = y[i])
    (hhigh : x[i + 2] = y[i + 2]) : LanesAgree i (blockOfLanes x) (blockOfLanes y) := by
  intro j hj hlane
  rw [blockOfLanes_getElem, blockOfLanes_getElem]
  have hcases : j / 16 = i ∨ j / 16 = i + 2 := by omega
  rcases hcases with h | h
  · simp only [h, hlow]
  · simp only [h, hhigh]

theorem lanesAgree_of_laneOf {i : Nat} (hi : i < 2) {b d : Block}
    (hlow : laneOf b ⟨i, by omega⟩ = laneOf d ⟨i, by omega⟩)
    (hhigh : laneOf b ⟨i + 2, by omega⟩ = laneOf d ⟨i + 2, by omega⟩) : LanesAgree i b d := by
  have h : LanesAgree i (blockOfLanes (lanesOf b)) (blockOfLanes (lanesOf d)) :=
    lanesAgree_blockOfLanes hi (by simpa only [lanesOf_getElem] using hlow)
      (by simpa only [lanesOf_getElem] using hhigh)
  rwa [lanesOf, lanesOf, blockOfLanes_lanes, blockOfLanes_lanes] at h

namespace BytesAgree

variable {i : Nat} {m n : List Byte}

/-- Complete blocks taken off the front leave every byte in its lane. -/
theorem drop_blocks (h : BytesAgree i m n) (k : Nat) : BytesAgree i (m.drop (64 * k)) (n.drop (64 * k)) := by
  intro j hj
  rw [List.getElem?_drop, List.getElem?_drop]
  exact h _ (by omega)

theorem take (h : BytesAgree i m n) (k : Nat) : BytesAgree i (m.take k) (n.take k) := by
  intro j hj
  rw [List.getElem?_take, List.getElem?_take, h j hj]

theorem lanesAgree (h : BytesAgree i m n) : LanesAgree i (blockOfBytes m) (blockOfBytes n) := by
  intro j hj hlane
  rw [blockOfBytes_getElem, blockOfBytes_getElem, List.getD_eq_getElem?_getD, List.getD_eq_getElem?_getD, h j hlane]

end BytesAgree

namespace LanesAgree

variable {i : Nat} {b d s s' : Block} (path : Path) (p : Params)

theorem laneOf_eq (h : LanesAgree i b d) {l : Fin 4} (hl : l.val % 2 = i) : laneOf b l = laneOf d l := by
  ext1 j hj
  rw [laneOf_getElem, laneOf_getElem]
  exact h _ _ (by omega)

theorem xor (hs : LanesAgree i s s') (hb : LanesAgree i b d) :
    LanesAgree i (xorBytes s b) (xorBytes s' d) := by
  intro j hj hlane
  rw [xorBytes_getElem, xorBytes_getElem, hs j hj hlane, hb j hj hlane]

/-- Each lane goes through the rounds by itself (R132(b)). -/
theorem rounds_getElem (h : LanesAgree i b d) {l : Nat} (hl : l < 4) (hlane : l % 2 = i) :
    (rounds path p 8 (lanesOf b))[l] = (rounds path p 8 (lanesOf d))[l] := by
  rw [rounds_eight_getElem path p _ hl, rounds_eight_getElem path p _ hl, lanesOf_getElem, lanesOf_getElem,
    h.laneOf_eq hlane]

/-- The fold brings lanes `i` and `i + 2` together and no others (R132(d)). -/
theorem permP_getElem (h : LanesAgree i b d) {j : Nat} (hj : j < 32) (hlane : (j / 16) % 2 = i) :
    (permP path p b)[j] = (permP path p d)[j] := by
  rw [permP_getElem_lanes path p b hj, permP_getElem_lanes path p d hj,
    h.rounds_getElem path p (l := j / 16) (by omega) hlane,
    h.rounds_getElem path p (l := j / 16 + 2) (by omega) (by omega),
    h j (by omega) hlane, h (32 + j) (by omega) (by omega)]

theorem absorb (hs : LanesAgree i s s') (hb : LanesAgree i b d) :
    LanesAgree i (absorbState path p s b) (absorbState path p s' d) := by
  intro j hj hlane
  rcases Nat.lt_or_ge j 32 with hlow | hhigh
  · rw [absorbState_low path p s b j hlow, absorbState_low path p s' d j hlow]
    exact (hs.xor hb).permP_getElem path p hlow hlane
  · rw [absorbState_high path p s b j hj hhigh, absorbState_high path p s' d j hj hhigh, hs j hj hlane,
      hb j hj hlane]

theorem absorb_blocks (hs : LanesAgree i s s') {m n : List Byte} (hm : BytesAgree i m n) (k : Nat) :
    LanesAgree i (absorbBytes path p k m s) (absorbBytes path p k n s') := by
  induction k generalizing m n s s' with
  | zero => exact hs
  | succ k ih => exact ih (hs.absorb path p (hm.take 64).lanesAgree) (hm.drop_blocks 1)

/-- Lane `i` of the digest of padded blocks depends on lanes `i` and `i + 2` alone (R166). -/
theorem squeeze_getElem (hs : LanesAgree i s s') {q r : List Byte} (hlen : q.length = r.length)
    (hq : BytesAgree i q r) {j : Nat} (hj : j < 32) (hlane : (j / 16) % 2 = i) :
    (squeeze path p s q)[j] = (squeeze path p s' r)[j] := by
  simp only [squeeze, hlen]
  have hlast := (hq.drop_blocks (r.length / 64 - 1)).lanesAgree
  exact ((hs.absorb_blocks path p hq _).xor hlast).permP_getElem path p hj hlane

end LanesAgree

/-! ### One constant for every round -/

/-- With an all-equal constant table every lane meets the same constant in every round (R132(d)). -/
theorem laneConstant_of_rc_replicate {p : Params} {k : Lane} (hrc : p.rc = Vector.replicate 8 k) (i r : Nat) :
    laneConstant p i r = k := by
  simp only [laneConstant, hrc, Vector.getElem_replicate]

/-- Then equal lanes stay equal through the rounds. -/
theorem rounds_getElem_of_rc_replicate (path : Path) {p : Params} {k : Lane} (hrc : p.rc = Vector.replicate 8 k)
    {x : Vector Lane 4} {i l : Nat} (hi : i < 4) (hl : l < 4) (hx : x[i] = x[l]) :
    (rounds path p 8 x)[i] = (rounds path p 8 x)[l] := by
  rw [rounds_eight_getElem path p x hi, rounds_eight_getElem path p x hl, hx]
  simp only [laneConstant_of_rc_replicate hrc]

/-! ### The initial state is read by `Init` alone -/

section InitialState
variable (path : Path) (p : Params) (iv : Vector Lane 4)

theorem rounds_iv (n : Nat) (x : Vector Lane 4) : rounds path { p with iv := iv } n x = rounds path p n x := by
  induction n with
  | zero => rfl
  | succ n ih => rw [rounds, rounds, ih]; rfl

theorem permP_iv (t : Block) : permP path { p with iv := iv } t = permP path p t := by
  simp only [permP, rounds_iv]

theorem absorbBytes_iv (k : Nat) (m : List Byte) (s : Block) :
    absorbBytes path { p with iv := iv } k m s = absorbBytes path p k m s := by
  induction k generalizing m s with
  | zero => rfl
  | succ k ih => simp only [absorbBytes, ih, absorbState, permP_iv]

/-- Another initial state is another state to start the absorbing from (R152). -/
theorem messageDigest_iv (m : List Byte) :
    messageDigest path { p with iv := iv } m = squeeze path p (blockOfLanes iv) (padMessage m) := by
  simp only [messageDigest, ivBlock, squeeze, absorbBytes_iv, permP_iv]

end InitialState

/-! ### `HASH` and the padded message -/

/-- The complete blocks of a message are absorbed before its padded end is squeezed (R150, R154). -/
theorem squeeze_padMessage (path : Path) (p : Params) (s : Block) (m : List Byte) :
    squeeze path p s (padMessage m) =
      squeeze path p (absorbBytes path p (m.length / 64) m s)
        (padTail (m.drop (64 * (m.length / 64))) m.length) := by
  have hblocks : (m.take (64 * (m.length / 64))).length = 64 * (m.length / 64) := by
    rw [List.length_take]
    omega
  have hpadded : 64 ≤ (padTail (m.drop (64 * (m.length / 64))) m.length).length := by
    rw [padTail_length _ _ (by rw [List.length_drop]; omega)]
    split <;> decide
  have habsorb := absorbBytes_append path p (m.length / 64) (m.take (64 * (m.length / 64)))
    (m.drop (64 * (m.length / 64))) s hblocks.ge
  rw [padMessage, squeeze_append path p s _ _ _ hblocks hpadded, ← habsorb, List.take_append_drop]

/-- The digest of `HASH` is the digest of the padded message (R154, R160). -/
theorem hashDigest_eq_messageDigest (s : State) (m : List Byte) :
    hashDigest s m = messageDigest s.active s.params m := by
  obtain ⟨hhash, hvalid, -, htot, -⟩ := append_spec s.active s.params m (s.scr.init s.params)
  have hcnt : (s.scr.init s.params).cnt.toNat = 0 := by rw [init_cnt]; rfl
  have hempty : (s.scr.init s.params).validBytes = [] := validBytes_of_cnt_zero _ (init_cnt ..)
  rw [hcnt, Nat.zero_add, hempty, List.nil_append] at hhash hvalid
  rw [init_tot, BitVec.ofNat_eq_ofNat, BitVec.zero_add] at htot
  rw [hashDigest, finish_spec, hhash, hvalid, htot, init_hashState, BitVec.toNat_ofNat, padTail_mod, messageDigest,
    squeeze_padMessage]

/-- `HASH` under another initial state. -/
theorem hashDigest_iv (s : State) (iv : Vector Lane 4) (m : List Byte) :
    hashDigest { s with params := { s.params with iv := iv } } m =
      squeeze s.active s.params (blockOfLanes iv) (padMessage m) :=
  (hashDigest_eq_messageDigest _ m).trans (messageDigest_iv s.active s.params iv m)

/-- The 16 bytes of half `i` of a digest (R7, R166). -/
theorem digest_half_ext {d e : Digest} {i : Nat} (hi : i < 2)
    (h : ∀ (j : Nat) (hj : j < 32), (j / 16) % 2 = i → d[j] = e[j]) :
    (d.toList.drop (16 * i)).take 16 = (e.toList.drop (16 * i)).take 16 := by
  apply List.ext_getElem
  · simp only [List.length_take, List.length_drop, Vector.length_toList]
  · intro j hj _
    rw [List.length_take] at hj
    simp only [List.getElem_take, List.getElem_drop, Vector.getElem_toList]
    exact h _ _ (by omega)

end Sys2Proof.Machine

namespace Sys2Proof.Proofs

open Sys2Proof.Machine

/-- Settles O19: the two forms of the S-box agree, and nothing else of `P` reads the datapath. -/
theorem datapathsAgree : Obligations.DatapathsAgree :=
  permP_path .portable .accel

/-- Settles O20, by the position of the lane through the rounds (`rounds_at_lanePosition`). -/
theorem laneIsEightKeyedRounds : Obligations.LaneIsEightKeyedRounds :=
  fun path p x _ hi => rounds_eight_getElem path p x hi

/-- Settles O21: each lane goes through the rounds by itself, and the fold joins lanes `i` and `i + 2`. -/
theorem outputLaneDependsOnTwoInputLanes : Obligations.OutputLaneDependsOnTwoInputLanes := by
  intro path p t u i hi hlow hhigh j hj
  exact (lanesAgree_of_laneOf hi hlow hhigh).permP_getElem path p _ (by omega)

/-- Settles O22: lanes `i` and `i + 2` are equal before the rounds and after them, and the fold cancels them. -/
theorem equalConstantsCancel : Obligations.EqualConstantsCancel := by
  intro path p t k hrc hhalves
  ext1 j hj
  have hlanes : (lanesOf t)[j / 16] = (lanesOf t)[j / 16 + 2] := by
    rw [lanesOf_getElem, lanesOf_getElem]
    ext1 b hb
    have hoffset : 16 * (j / 16 + 2) + b = 32 + (16 * (j / 16) + b) := by omega
    rw [laneOf_getElem, laneOf_getElem]
    simp only [hoffset]
    exact hhalves _ (by omega)
  rw [permP_getElem_lanes path p t hj, rounds_getElem_of_rc_replicate path hrc (by omega) (by omega) hlanes,
    hhalves j hj, BitVec.xor_self, zeroBytes_getElem, BitVec.ofNat_eq_ofNat]

/-- Settles O37: both digests are squeezed from padded messages and initial states that agree in lanes `i` and
`i + 2`. -/
theorem hashLaneSeparation : Obligations.HashLaneSeparation := by
  intro s iv m n i hi hlen hbytes hlow hhigh
  have hstart : LanesAgree i (ivBlock s.params) (blockOfLanes iv) := lanesAgree_blockOfLanes hi hlow hhigh
  refine ⟨_, _, _, _, exec_hash s m, exec_hash _ n, rfl, rfl, digest_half_ext hi fun j hj hlane => ?_⟩
  rw [hashDigest_eq_messageDigest s m, hashDigest_iv]
  exact hstart.squeeze_getElem s.active s.params hlen hbytes hj hlane

/-- Settles O17: the table and the inverse at every byte, and the four check values of R124. -/
theorem sboxTableIsTheFormula : Obligations.SboxTableIsTheFormula :=
  ⟨sboxTable_eq_sboxFormula, gfMul_gfInv, by decide, by decide, by decide, by decide, by decide⟩

/-- Settles O18: the known answer of `ACCEL` is that of both datapaths; the zero lane is a lane of equal bytes. -/
theorem aesRoundKnownAnswers : Obligations.AesRoundKnownAnswers := by
  intro path
  refine ⟨fun a k j hj => aesRound_getElem path a k j hj, ?_, aesRound_replicate path 0,
    fun b c hc v hcol r hr => mixColumns_equal_column b hc hcol hr, aesRound_replicate path⟩
  rw [aesRound_path path .accel]
  decide +kernel

end Sys2Proof.Proofs

/-! PROOFS about the Sponge Engine (spec/41_sponge.md): the length field and the blocks of a padded message, one block
into an empty slot, and the lifecycle of a slot; the table of R164 is a case for each phase of the slot that a command
names, and the commands outside it commute with any change of the slots (`State.withSlots`). -/

namespace Sys2Proof.Machine

/-! ### The length field -/

theorem blockOfBytes_toList_of_length {l : List Byte} (h : l.length = 64) : (blockOfBytes l).toList = l := by
  refine List.ext_getElem (by simp [h]) fun j hj hl => ?_
  rw [Vector.getElem_toList, blockOfBytes_getElem, List.getD_eq_getElem _ _ hl]

/-- The last 8 bytes of a padded end of one block are the length field (R154, R155). -/
theorem padTail_drop {tail : List Byte} (h : tail.length ≤ 55) (total : Nat) :
    (padTail tail total).drop 56 = leBytes 8 ((total * 8) % 2 ^ 64) := by
  rw [padTail, if_pos h]
  refine List.drop_left' ?_
  simp only [List.length_append, List.length_singleton, zeros_length]
  omega

/-- The final block ends with the bit length of the total, little-endian (R155). -/
theorem finalBlock_lengthField {c : Ctx} (h : c.cnt.toNat ≤ 55) :
    c.finalBlock.toList.drop 56 = leBytes 8 ((c.tot.toNat * 8) % 2 ^ 64) := by
  have htail : c.validBytes.length ≤ 55 := by rwa [validBytes_length]
  have hblock : (padTail c.validBytes c.tot.toNat).length = 64 := by
    rw [padTail_length _ _ (by omega), if_pos htail]
  rw [finalBlock_spec c h, blockOfBytes_toList_of_length hblock, padTail_drop htail]

/-- Only the total modulo 2^61 bytes reaches the length field (R155). -/
theorem padTail_congr (tail : List Byte) {n m : Nat} (h : n % 2 ^ 61 = m % 2 ^ 61) :
    padTail tail n = padTail tail m := by
  have hbits : (n * 8) % 2 ^ 64 = (m * 8) % 2 ^ 64 := by omega
  rw [padTail, padTail, hbits]

/-! ### One block into an empty buffer -/

theorem append_hashState_block (path : Path) (p : Params) {pay : List Byte} {c : Ctx} (hempty : c.cnt = 0)
    (hlen : pay.length = 64) :
    (c.append path p pay).hashState = absorbState path p c.hashState (blockOfBytes pay) := by
  obtain ⟨hhash, -⟩ := append_spec path p pay c
  have hone : (c.cnt.toNat + pay.length) / 64 = 1 := by rw [hempty, hlen]; rfl
  rw [hhash, hone, validBytes_of_cnt_zero c hempty, List.nil_append, absorbBytes, absorbBytes,
    List.take_of_length_le hlen.le]

/-! ### Commands on a slot of a given phase -/

/-- A slot that is written holds what was written to it. -/
theorem slot_set {slots : List Ctx} {n : Nat} {c : Ctx} (hc : slots[n]? = some c) (d : Ctx) :
    (slots.set n d)[n]? = some d := by
  obtain ⟨hlt, -⟩ := List.getElem?_eq_some_iff.mp hc
  exact List.getElem?_set_self hlt

/-- The operands of a command that takes a handle: `ARG` is 0 and the length is accepted (R95, R96). -/
theorem operandError_handle {f : OperandForm} {h : Byte} {len : Nat} (hhandle : f.takesHandle = true)
    (hlen : f.len.accepts len = true) : operandError f h 0 len = none :=
  operandError_none.mpr ⟨by simp [hhandle], hlen⟩

section HandleCommands
variable {s : State} {h : Byte} {c : Ctx} {e : Err}

theorem activeSlot_free (hc : s.slots[h.toNat]? = some c) (hfree : c.phase = .free) :
    s.activeSlot h = .error .badHandle := by
  simp only [State.activeSlot, State.slot?, hc, hfree]

theorem activeSlot_finalized (hc : s.slots[h.toNat]? = some c) (hfinal : c.phase = .finalized) :
    s.activeSlot h = .error .finalized := by
  simp only [State.activeSlot, State.slot?, hc, hfinal]

theorem takenSlot_free (hc : s.slots[h.toNat]? = some c) (hfree : c.phase = .free) :
    s.takenSlot h = .error .badHandle := by
  simp only [State.takenSlot, State.slot?, hc, hfree]

theorem exec_update_refused (pay : List Byte) (hslot : s.activeSlot h = .error e) :
    exec (.update h 0 pay) s = .next (raise e s) := by
  have heff : effectOf (.update h 0 pay) s = .error e := by simp only [effectOf, hslot]
  exact exec_effect_error (.inl (by simp [Instr.opcode])) (operandError_handle rfl rfl) heff

theorem exec_finalize_refused (hslot : s.activeSlot h = .error e) :
    exec (.finalize h 0 []) s = .next (raise e s) := by
  have heff : effectOf (.finalize h 0 []) s = .error e := by simp only [effectOf, hslot]
  exact exec_effect_error (.inl (by simp [Instr.opcode])) (operandError_handle rfl rfl) heff

theorem exec_destroy_refused (hslot : s.takenSlot h = .error e) :
    exec (.destroy h 0 []) s = .next (raise e s) := by
  have heff : effectOf (.destroy h 0 []) s = .error e := by simp only [effectOf, hslot]
  exact exec_effect_error (.inl (by simp [Instr.opcode])) (operandError_handle rfl rfl) heff

/-- `DBGRD` of a slot dumps it, whatever its phase (R185). -/
theorem exec_dbgrd_slot (hhook : s.params.testHookEn = true) (hglobal : h ≠ 0xFE) (hscratch : h ≠ 0xFF)
    (hc : s.slots[h.toNat]? = some c) :
    exec (.dbgrd h 0 []) s = .next { s with output := s.output ++ [.ok (ctxDump c)] } := by
  have heff : effectOf (.dbgrd h 0 []) s = .ok (s, ctxDump c) := by
    simp only [effectOf, dbgTarget, if_neg hglobal, if_neg hscratch, State.slot?, hc]
  exact exec_effect_ok (.inr hhook) (operandError_handle rfl rfl) heff

end HandleCommands

/-- `CREATE` finds no slot (R156, R202). -/
theorem exec_create_refused {s : State} (hnone : s.smallestFree = none) :
    exec (.create 0 0 []) s = .next (raise .noContext s) :=
  exec_effect_error (i := .create 0 0 []) (.inl (by decide)) (by decide) (by simp only [effectOf, hnone])

/-! ### Commands that name no slot -/

/-- The state with other slots (R20). -/
def State.withSlots (slots : List Ctx) (s : State) : State := { s with slots := slots }

section WithSlots
variable (slots : List Ctx) (s : State)

@[simp] theorem withSlots_params : (s.withSlots slots).params = s.params := rfl
@[simp] theorem withSlots_scr : (s.withSlots slots).scr = s.scr := rfl
@[simp] theorem withSlots_active : (s.withSlots slots).active = s.active := rfl

theorem hashDigest_withSlots (msg : List Byte) : hashDigest (s.withSlots slots) msg = hashDigest s msg := by
  simp only [hashDigest, withSlots_params, withSlots_scr, withSlots_active]

/-- What an effect leaves, with other slots. -/
def Effect.withSlots (x : Effect) : Effect := x.map fun r => (r.1.withSlots slots, r.2)

@[simp] theorem Effect.withSlots_ok (u : State) (out : List Byte) :
    Effect.withSlots slots (.ok (u, out)) = .ok (u.withSlots slots, out) := rfl

@[simp] theorem Effect.withSlots_error (e : Err) : Effect.withSlots slots (.error e) = .error e := rfl

/-- The frame of a command passes other slots through. -/
theorem commandState_withSlots (form : OperandForm) (hnd arg : Byte) (pay : List Byte) (x : Effect) :
    commandState form hnd arg pay (s.withSlots slots) (Effect.withSlots slots x) =
      (commandState form hnd arg pay s x).withSlots slots := by
  unfold commandState
  cases operandError form hnd arg pay.length with
  | some e => rfl
  | none => cases x <;> rfl

/-- The commands outside the lifecycle table read no slot and write none (R164). -/
theorem effectOf_withSlots {i : Instr} (h : i.opcode.toNat ∉ [2, 3, 4, 5, 11]) :
    effectOf i (s.withSlots slots) = Effect.withSlots slots (effectOf i s) := by
  cases i with
  | hash hnd arg pay =>
    simp only [effectOf, hashDigest_withSlots, Effect.withSlots_ok]
    rfl
  | permute hnd arg pay =>
    simp only [effectOf, withSlots_params, withSlots_active, Effect.withSlots_ok]
  | hasaccel hnd arg pay => rfl
  | haswide hnd arg pay => rfl
  | parallel hnd arg pay => rfl
  | setpath hnd arg pay =>
    simp only [effectOf]
    cases forceOfArg arg with
    | none => rfl
    | some m =>
      simp only [apply_ite (Effect.withSlots slots), Effect.withSlots_ok, Effect.withSlots_error]
      rfl
  | create hnd arg pay => exact absurd h (by simp [Instr.opcode])
  | update hnd arg pay => exact absurd h (by simp [Instr.opcode])
  | finalize hnd arg pay => exact absurd h (by simp [Instr.opcode])
  | destroy hnd arg pay => exact absurd h (by simp [Instr.opcode])
  | dbgrd hnd arg pay => exact absurd h (by simp [Instr.opcode])

end WithSlots

theorem exec_withSlots {i : Instr} {s t : State} (slots : List Ctx) (hi : i.opcode.toNat ∉ [2, 3, 4, 5, 11])
    (h : exec i s = .next t) : exec i (s.withSlots slots) = .next (t.withSlots slots) := by
  have hne : i.opcode ≠ 0x0B := by
    intro he
    simp [he] at hi
  rw [exec_effect i s (.inl hne)] at h
  rw [exec_effect i _ (.inl hne), effectOf_withSlots slots s hi, commandState_withSlots]
  cases h
  rfl

/-- A command that does the same with any slots does not write them. -/
theorem exec_keeps_slots {i : Instr} {s t : State} (hi : i.opcode.toNat ∉ [2, 3, 4, 5, 11])
    (h : exec i s = .next t) : t.slots = s.slots := by
  have hsame : exec i s = .next (t.withSlots s.slots) := exec_withSlots s.slots hi h
  rw [h, Host.Outcome.next.injEq] at hsame
  rw [hsame]
  rfl

/-! ### The lifecycle table -/

/-- The rows of R164 for the commands that name the slot `h`. -/
theorem lifecycle_row {s : State} {h : Byte} {c : Ctx} (pay : List Byte) (hhook : s.params.testHookEn = true)
    (hglobal : h ≠ 0xFE) (hscratch : h ≠ 0xFF) (hc : s.slots[h.toNat]? = some c) :
    ∀ row ∈ lifecycle h pay, c.phase = row.2.1 →
      ∃ t c', exec row.1 s = .next t ∧ t.slots[h.toNat]? = some c' ∧ c'.phase = row.2.2.2 ∧
        match row.2.2.1 with
        | some e => t.output = s.output ++ [.err e]
        | none => ∃ out, t.output = s.output ++ [.ok out] := by
  intro row hrow hphase
  simp only [lifecycle, List.mem_cons, List.not_mem_nil, or_false] at hrow
  rcases hrow with rfl | rfl | rfl | rfl | rfl | rfl | rfl | rfl | rfl | rfl | rfl | rfl
  · exact ⟨_, c, exec_update_refused pay (activeSlot_free hc hphase), hc, hphase, rfl⟩
  · obtain ⟨-, -, -, -, hkept⟩ := append_spec s.active s.params pay c
    exact ⟨_, _, exec_update_active pay hc hphase, slot_set hc _, hkept.trans hphase, _, rfl⟩
  · exact ⟨_, c, exec_update_refused pay (activeSlot_finalized hc hphase), hc, hphase, rfl⟩
  · exact ⟨_, c, exec_finalize_refused (activeSlot_free hc hphase), hc, hphase, rfl⟩
  · exact ⟨_, _, exec_finalize_active hc hphase, slot_set hc _, rfl, _, rfl⟩
  · exact ⟨_, c, exec_finalize_refused (activeSlot_finalized hc hphase), hc, hphase, rfl⟩
  · exact ⟨_, c, exec_destroy_refused (takenSlot_free hc hphase), hc, hphase, rfl⟩
  · exact ⟨_, _, exec_destroy_taken hc (hphase.trans_ne nofun), slot_set hc _, rfl, _, rfl⟩
  · exact ⟨_, _, exec_destroy_taken hc (hphase.trans_ne nofun), slot_set hc _, rfl, _, rfl⟩
  all_goals exact ⟨_, c, exec_dbgrd_slot hhook hglobal hscratch hc, hc, hphase, _, rfl⟩

/-- `CREATE` makes the smallest `FREE` slot `ACTIVE` and leaves every other slot (R156, R164). -/
theorem create_row {s : State} {h : Nat} (hfree : s.smallestFree = some h) :
    ∃ t c' out, exec (.create 0 0 []) s = .next t ∧ t.slots[h]? = some c' ∧ c'.phase = .active ∧
      t.output = s.output ++ [.ok out] ∧
      ∀ (j : Nat) (d : Ctx), j ≠ h → s.slots[j]? = some d → t.slots[j]? = some d := by
  obtain ⟨c, hc, -, -⟩ := smallestFree_some hfree
  refine ⟨_, _, _, exec_create_smallestFree hfree, slot_set hc _, rfl, rfl, fun j d hj hd => ?_⟩
  exact (List.getElem?_set_ne hj.symm).trans hd

end Sys2Proof.Machine

namespace Sys2Proof.Proofs

open Sys2Proof.Machine

/-- Settles O24: what the scratch context computes is the digest of the padded message
(`hashDigest_eq_messageDigest`). -/
theorem hashIsPaddedMessageDigest : Obligations.HashIsPaddedMessageDigest := by
  intro s m
  rw [exec_hash, hashDigest_eq_messageDigest]
  rfl

/-- Settles O29: the one block is absorbed into the HashState, lanes 0 and 1 apart from lanes 2 and 3. -/
theorem updateAbsorbsOneBlock : Obligations.UpdateAbsorbsOneBlock := by
  intro s h c pay hc hactive hempty hlen
  refine ⟨_, _, exec_update_active pay hc hactive, slot_set hc _, ?_⟩
  rw [append_hashState_block s.active s.params hempty hlen]
  refine ⟨fun j hj => absorbState_low _ _ _ _ j hj, fun j hj hhigh => ?_⟩
  rw [absorbState_high _ _ _ _ j hj hhigh, blockOfBytes_getElem]

/-- Settles O30: `Append` is a homomorphism (`append_append`). -/
theorem updatesCompose : Obligations.UpdatesCompose := by
  intro s h c a b hc hactive
  obtain ⟨-, -, -, -, hphase⟩ := append_spec s.active s.params a c
  obtain ⟨hhash, hvalid, hcnt, htot, hphases⟩ := append_append s.active s.params a b c
  exact ⟨_, _, _, _, _, exec_update_active a hc hactive, exec_update_active b (slot_set hc _) (hphase.trans hactive),
    exec_update_active (a ++ b) hc hactive, slot_set (slot_set hc _) _, slot_set hc _,
    hhash, hcnt, htot, hvalid, hphases⟩

/-- Settles O33: the rows, the column of `CREATE`, and the commands that do the same with any slots. -/
theorem lifecycleTable : Obligations.LifecycleTable :=
  ⟨fun _ _ pay _ hhook hglobal hscratch hc => lifecycle_row pay hhook hglobal hscratch hc,
    fun _ _ hfree => create_row hfree,
    fun _ _ _ hi h => ⟨exec_keeps_slots hi h, fun slots => exec_withSlots slots hi h⟩⟩

/-- Settles O35: after the first branch of `Finish` the length field ends the block, and `Finish` reads the total
through the length field alone. -/
theorem lengthFieldWraps : Obligations.LengthFieldWraps := by
  refine ⟨fun path p c => ?_, fun path p c d hhash hvalid htot => ?_⟩
  · rw [finalBlock_lengthField (spill_cnt_le path p c), spill_tot, leNat_leBytes]
    omega
  · rw [finish_spec, finish_spec, hhash, hvalid, padTail_congr _ htot]

/-- Settles O52: the dump of a zero context, and the refusal of a `FINALIZED` slot. -/
theorem finalizedContextIsZeroed : Obligations.FinalizedContextIsZeroed := by
  intro s h c pay hhook hglobal hscratch hc hactive
  have hdump : ctxDump { Ctx.zero with phase := .finalized } = zeros 137 ++ [2] := by decide
  refine ⟨_, _, _, exec_finalize_active hc hactive, runCommands_pair
    (exec_dbgrd_slot hhook hglobal hscratch (slot_set hc _))
    (exec_update_refused pay (activeSlot_finalized (slot_set hc _) rfl)), rfl, ?_⟩
  rw [raise_output, hdump, List.append_assoc]
  rfl

/-- Settles O26: the search for a `FREE` slot finds none. -/
theorem createWithoutFreeSlot : Obligations.CreateWithoutFreeSlot :=
  fun _ hnone => exec_create_refused (smallestFree_none.mpr hnone)

/-- Settles O36: the complete blocks, and a padded end of one or two (`padTail_length`). -/
theorem paddedBlockCount : Obligations.PaddedBlockCount := by
  intro m
  have htail : (m.drop (64 * (m.length / 64))).length = m.length % 64 := by
    rw [List.length_drop]
    omega
  rw [padMessage, List.length_append, padTail_length _ _ (by omega), htail, List.length_take, Nat.mul_add]
  omega

end Sys2Proof.Proofs

/-! PROOFS about the capability queries, the path control and the test hook (spec/42_capability_and_control.md): the
queries and `SETPATH` commute with any change of the contexts (`State.withContexts`), so they neither read nor write one;
and the fields of the context dump, by offset. -/

namespace Sys2Proof.Machine

/-! ### Commands that commute with a change of the state -/

/-- What an effect leaves, with the state changed by `g`. -/
def Effect.mapState (g : State → State) (x : Effect) : Effect := x.map fun r => (g r.1, r.2)

@[simp] theorem Effect.mapState_ok (g : State → State) (u : State) (out : List Byte) :
    Effect.mapState g (.ok (u, out)) = .ok (g u, out) := rfl

@[simp] theorem Effect.mapState_error (g : State → State) (e : Err) : Effect.mapState g (.error e) = .error e := rfl

section MapState
variable {g : State → State} {s t : State}

/-- The frame of a command passes through every change of the state that does not concern the responses. -/
theorem commandState_mapState (hraise : ∀ e u, raise e (g u) = g (raise e u))
    (hrespond : ∀ out u, respond out (g u) = g (respond out u)) (form : OperandForm) (hnd arg : Byte)
    (pay : List Byte) (x : Effect) :
    commandState form hnd arg pay (g s) (x.mapState g) = g (commandState form hnd arg pay s x) := by
  unfold commandState
  cases operandError form hnd arg pay.length with
  | some e => exact hraise e s
  | none =>
    cases x with
    | error e => exact hraise e s
    | ok r => exact hrespond r.2 r.1

/-- A command whose effect commutes with a change of the state commutes with it. -/
theorem exec_mapState {i : Instr} (hraise : ∀ e u, raise e (g u) = g (raise e u))
    (hrespond : ∀ out u, respond out (g u) = g (respond out u)) (hne : i.opcode ≠ 0x0B)
    (heff : effectOf i (g s) = (effectOf i s).mapState g) (h : exec i s = .next t) :
    exec i (g s) = .next (g t) := by
  rw [exec_effect i s (.inl hne)] at h
  rw [exec_effect i _ (.inl hne), heff, commandState_mapState hraise hrespond]
  cases h
  rfl

end MapState

/-! ### The control commands and the contexts -/

/-- The state with other slots and another scratch context (R20). -/
def State.withContexts (slots : List Ctx) (scr : Ctx) (s : State) : State := { s with slots := slots, scr := scr }

/-- The capability queries and `SETPATH` read no context (R187). -/
theorem effectOf_withContexts {i : Instr} (slots : List Ctx) (scr : Ctx) (s : State) (hcontrol : 7 ≤ i.opcode.toNat)
    (hne : i.opcode ≠ 0x0B) :
    effectOf i (s.withContexts slots scr) = (effectOf i s).mapState (State.withContexts slots scr) := by
  cases i with
  | hasaccel hnd arg pay => rfl
  | haswide hnd arg pay => rfl
  | parallel hnd arg pay => rfl
  | setpath hnd arg pay =>
    simp only [effectOf]
    cases forceOfArg arg with
    | none => rfl
    | some m =>
      simp only [apply_ite (Effect.mapState _), Effect.mapState_ok, Effect.mapState_error]
      rfl
  | dbgrd hnd arg pay => exact absurd rfl hne
  | _ => exact absurd hcontrol (by simp [Instr.opcode])

theorem exec_withContexts {i : Instr} {s t : State} (slots : List Ctx) (scr : Ctx) (hcontrol : 7 ≤ i.opcode.toNat)
    (hne : i.opcode ≠ 0x0B) (h : exec i s = .next t) :
    exec i (s.withContexts slots scr) = .next (t.withContexts slots scr) :=
  exec_mapState (fun _ _ => rfl) (fun _ _ => rfl) hne (effectOf_withContexts slots scr s hcontrol hne) h

/-- `DBGRD` changes nothing but the responses (R72, R185). -/
theorem exec_dbgrd_adds_response {i : Instr} (hopc : i.opcode = 0x0B) (s : State) :
    ∃ r, exec i s = .next { s with output := s.output ++ [r] } := by
  cases i with
  | dbgrd hnd arg pay => exact exec_of_effect_keeps_state fun _ _ heff => dbgTarget_state heff
  | _ => exact absurd hopc (by simp [Instr.opcode])

/-- The control commands write no context (R187): `DBGRD` writes nothing, and the others do the same with the contexts
they find put in the place of any. -/
theorem exec_keeps_contexts {i : Instr} {s t : State} (hcontrol : 7 ≤ i.opcode.toNat) (h : exec i s = .next t) :
    t.slots = s.slots ∧ t.scr = s.scr := by
  by_cases hopc : i.opcode = 0x0B
  · obtain ⟨r, hr⟩ := exec_dbgrd_adds_response hopc s
    cases hr.symm.trans h
    exact ⟨rfl, rfl⟩
  · have hsame : exec i s = .next (t.withContexts s.slots s.scr) :=
      exec_withContexts s.slots s.scr hcontrol hopc h
    rw [h, Host.Outcome.next.injEq] at hsame
    rw [hsame]
    exact ⟨rfl, rfl⟩

/-! ### The context dump -/

/-- The five fields of the context dump, by offset (R186). -/
theorem ctxDump_fields (c : Ctx) :
    (ctxDump c).take 64 = c.hashState.toList ∧ ((ctxDump c).drop 64).take 64 = c.buf.toList ∧
    ((ctxDump c).drop 128).take 1 = [BitVec.ofNat 8 c.cnt.toNat] ∧
    ((ctxDump c).drop 129).take 8 = leBytes 8 c.tot.toNat ∧ (ctxDump c).drop 137 = [c.phase.code] := by
  simp [ctxDump, List.take_append, List.drop_append, List.drop_eq_nil_of_le]

/-- The count fits its byte of the dump. -/
theorem leNat_cnt (c : Ctx) : leNat [BitVec.ofNat 8 c.cnt.toNat] = c.cnt.toNat := by
  have hlt := cnt_lt c
  simp only [leNat, BitVec.toNat_ofNat]
  omega

/-- The total survives `LE64`. -/
theorem leNat_leBytes_tot (c : Ctx) : leNat (leBytes 8 c.tot.toNat) = c.tot.toNat := by
  rw [leNat_leBytes]
  exact Nat.mod_eq_of_lt c.tot.isLt

/-- `DBGRD` of 0xFF dumps the scratch context (R71, R185). -/
theorem exec_dbgrd_scratch {s : State} (hhook : s.params.testHookEn = true) :
    exec (.dbgrd 0xFF 0 []) s = .next { s with output := s.output ++ [.ok (ctxDump s.scr)] } :=
  exec_effect_ok (i := .dbgrd 0xFF 0 []) (.inr hhook) (operandError_handle rfl rfl) rfl

end Sys2Proof.Machine

namespace Sys2Proof.Proofs

open Sys2Proof.Machine

/-- Settles O42: `exec_keeps_contexts` for the writes, `exec_withContexts` for the reads. -/
theorem controlCommandsIgnoreContexts : Obligations.ControlCommandsIgnoreContexts := by
  intro s t i hcontrol h
  obtain ⟨hslots, hscr⟩ := exec_keeps_contexts hcontrol h
  exact ⟨hslots, hscr, fun hne slots scr => exec_withContexts slots scr hcontrol hne h⟩

/-- Settles O48: `ACCEL` is the one mode whose datapath can be absent (`errorOf_effectOf_setpath`). -/
theorem setpathRefusesAbsentPath : Obligations.SetpathRefusesAbsentPath := by
  intro s habsent
  have heff : effectOf (.setpath 0 2 []) s = .error .unsupported :=
    errorOf_eq_some.mp (by rw [errorOf_effectOf_setpath, if_pos ⟨rfl, habsent⟩])
  exact exec_effect_error (i := .setpath 0 2 []) (.inl (by decide)) (by decide) heff

/-- Settles O49: `DBGRD` answers `ctxDump` of the context it names, whose fields are read by offset
(`ctxDump_fields`). -/
theorem dbgrdDumpsContext : Obligations.DbgrdDumpsContext := by
  intro s h c hhook htarget
  have hexec : exec (.dbgrd h 0 []) s = .next { s with output := s.output ++ [.ok (ctxDump c)] } := by
    rcases htarget with ⟨rfl, rfl⟩ | ⟨hglobal, hscratch, hc⟩
    · exact exec_dbgrd_scratch hhook
    · exact exec_dbgrd_slot hhook hglobal hscratch hc
  obtain ⟨hhash, hbuf, hcnt, htot, hphase⟩ := ctxDump_fields c
  refine ⟨ctxDump c, hexec, ctxDump_length c, hhash, hbuf, ?_, ?_, ?_⟩
  · rw [hcnt, leNat_cnt]
  · rw [htot, leNat_leBytes_tot]
  · rw [hphase]
    cases c.phase <;> rfl

/-- Settles O51: the gate comes before every other check (`exec_gated`). -/
theorem dbgrdNeedsTestHook : Obligations.DbgrdNeedsTestHook :=
  fun _ h a pay hhook => exec_gated (i := .dbgrd h a pay) rfl hhook

end Sys2Proof.Proofs

/-! PROOFS about errors (spec/60_exceptions.md): a command that answers an error only adds it to the responses, and no
command reads the responses given before it (`State.withOutput`), so none can see an earlier error. -/

namespace Sys2Proof.Machine

/-! ### A command that answers an error -/

/-- The response tells the two endings of a command apart: an error response is `raise` from the state the command
found (R203). -/
theorem exec_eq_raise_of_output {i : Instr} {s t : State} {e : Err} (h : exec i s = .next t)
    (hout : t.output = s.output ++ [.err e]) : t = raise e s := by
  obtain ⟨t', ht, hcases⟩ := exec_cases i s
  cases ht.symm.trans h
  rcases hcases with ⟨e', rfl⟩ | ⟨u, out, rfl, heff⟩
  · rw [raise_output] at hout
    cases List.append_cancel_left hout
    rfl
  · obtain ⟨-, hkept, -⟩ := effectOf_ok heff
    rw [respond_output, hkept] at hout
    cases List.append_cancel_left hout

/-! ### No command reads the responses -/

/-- The state after other responses (R97). -/
def State.withOutput (earlier : List Response) (s : State) : State := { s with output := earlier }

section WithOutput
variable (earlier : List Response) (s : State)

@[simp] theorem withOutput_params : (s.withOutput earlier).params = s.params := rfl

@[simp] theorem withOutput_active : (s.withOutput earlier).active = s.active := rfl

@[simp] theorem withOutput_scr : (s.withOutput earlier).scr = s.scr := rfl

theorem hashDigest_withOutput (msg : List Byte) : hashDigest (s.withOutput earlier) msg = hashDigest s msg := by
  simp only [hashDigest, withOutput_params, withOutput_active, withOutput_scr]

/-- Writing a slot and taking other responses do not meet. -/
theorem setSlot_withOutput (h : Nat) (c : Ctx) :
    (s.withOutput earlier).setSlot h c = (s.setSlot h c).withOutput earlier := rfl

@[simp] theorem withOutput_slot? (hnd : Byte) : (s.withOutput earlier).slot? hnd = s.slot? hnd := rfl

@[simp] theorem withOutput_activeSlot (hnd : Byte) : (s.withOutput earlier).activeSlot hnd = s.activeSlot hnd := rfl

@[simp] theorem withOutput_takenSlot (hnd : Byte) : (s.withOutput earlier).takenSlot hnd = s.takenSlot hnd := rfl

@[simp] theorem withOutput_smallestFree : (s.withOutput earlier).smallestFree = s.smallestFree := rfl

/-- The effect of a command reads no response and writes none. -/
theorem effectOf_withOutput (i : Instr) :
    effectOf i (s.withOutput earlier) = (effectOf i s).mapState (State.withOutput earlier) := by
  cases i with
  | hash hnd arg pay =>
    simp only [effectOf, hashDigest_withOutput, Effect.mapState_ok]
    rfl
  | create hnd arg pay =>
    simp only [effectOf, withOutput_smallestFree, withOutput_params, setSlot_withOutput]
    cases s.smallestFree with
    | none => rfl
    | some h => rw [Effect.mapState_ok]
  | update hnd arg pay =>
    simp only [effectOf, withOutput_activeSlot, withOutput_active, withOutput_params, setSlot_withOutput]
    cases s.activeSlot hnd with
    | error e => rfl
    | ok c => rw [Effect.mapState_ok]
  | finalize hnd arg pay =>
    simp only [effectOf, withOutput_activeSlot, withOutput_active, withOutput_params, setSlot_withOutput]
    cases s.activeSlot hnd with
    | error e => rfl
    | ok c => rw [Effect.mapState_ok]
  | destroy hnd arg pay =>
    simp only [effectOf, withOutput_takenSlot, setSlot_withOutput]
    cases s.takenSlot hnd with
    | error e => rfl
    | ok c => rw [Effect.mapState_ok]
  | permute hnd arg pay => simp only [effectOf, withOutput_active, withOutput_params, Effect.mapState_ok]
  | hasaccel hnd arg pay => rfl
  | haswide hnd arg pay => rfl
  | parallel hnd arg pay => rfl
  | setpath hnd arg pay =>
    simp only [effectOf]
    cases forceOfArg arg with
    | none => rfl
    | some m =>
      simp only [apply_ite (Effect.mapState _), Effect.mapState_ok, Effect.mapState_error]
      rfl
  | dbgrd hnd arg pay =>
    simp only [effectOf, dbgTarget, apply_ite (Effect.mapState _), withOutput_slot?]
    cases s.slot? hnd <;> rfl

/-- No check of R96 looks at a response. -/
theorem commandError_withOutput (i : Instr) : commandError i (s.withOutput earlier) = commandError i s := by
  have heff : errorOf (effectOf i (s.withOutput earlier)) = errorOf (effectOf i s) := by
    rw [effectOf_withOutput]
    cases effectOf i s <;> rfl
  rw [commandError, heff]
  rfl

end WithOutput

/-- A command adds one response, the same one after any earlier responses, and they change nothing else it does. -/
theorem exec_withOutput {i : Instr} {s u : State} (h : exec i s = .next u) :
    ∃ r, u.output = s.output ++ [r] ∧
      ∀ earlier, exec i (s.withOutput earlier) = .next (u.withOutput (earlier ++ [r])) := by
  cases hcheck : commandError i s with
  | some e =>
    cases (exec_of_commandError_some hcheck).symm.trans h
    exact ⟨.err e, rfl, fun earlier => exec_of_commandError_some (by rw [commandError_withOutput, hcheck])⟩
  | none =>
    obtain ⟨v, out, hexec, heff⟩ := exec_of_commandError_none hcheck
    cases hexec.symm.trans h
    obtain ⟨-, hkept, -⟩ := effectOf_ok heff
    refine ⟨.ok out, by rw [respond_output, hkept], fun earlier => ?_⟩
    obtain ⟨v', out', hexec', heff'⟩ :=
      exec_of_commandError_none (i := i) (s := s.withOutput earlier) (by rw [commandError_withOutput, hcheck])
    rw [effectOf_withOutput, heff, Effect.mapState_ok] at heff'
    cases heff'
    exact hexec'

end Sys2Proof.Machine

namespace Sys2Proof.Proofs

open Sys2Proof.Machine

/-- Settles O10: the whole of an error is its response. -/
theorem errorChangesNoState : Obligations.ErrorChangesNoState :=
  fun _ _ _ _ h hout => exec_eq_raise_of_output h hout

/-- Settles O11: the first command leaves only its response (O10), which the second does not read. -/
theorem errorsAreNotSticky : Obligations.ErrorsAreNotSticky := by
  intro i j s t u e hi hout hj
  obtain ⟨r, hr, hany⟩ := exec_withOutput hj
  refine ⟨r, hr, ?_⟩
  have hnext := hany (s.output ++ [.err e])
  rw [List.append_assoc] at hnext
  rw [exec_eq_raise_of_output hi hout]
  exact hnext

end Sys2Proof.Proofs

/-! PROOFS about reset and the path selection (spec/70_reset_and_hazards.md): no command but `SETPATH` leaves another
selection behind, whatever its outcome, so a step with no such packet before it keeps the selection. -/

namespace Sys2Proof.Machine

/-! ### Who writes the selection -/

/-- The opcode 0x0A is that of `SETPATH` alone (R95). -/
theorem eq_setpath_of_opcode {i : Instr} (h : i.opcode = 0x0A) : i = .setpath i.hnd i.arg i.pay := by
  cases i with
  | setpath hnd arg pay => rfl
  | _ => exact absurd h (by simp [Instr.opcode])

/-- A command other than `SETPATH` keeps the selection, whether it completes or answers an error (R184, R203). -/
theorem exec_keeps_selection {i : Instr} {s t : State} (hne : i.opcode ≠ 0x0A) (h : exec i s = .next t) :
    t.active = s.active ∧ t.force = s.force := by
  obtain ⟨t', ht, hcases⟩ := exec_cases i s
  cases ht.symm.trans h
  rcases hcases with ⟨e, rfl⟩ | ⟨u, out, rfl, heff⟩
  · exact ⟨raise_active e s, raise_force e s⟩
  · obtain ⟨-, -, -, -, -, hsel⟩ := effectOf_ok heff
    obtain ⟨hforce, hactive⟩ := hsel hne
    exact ⟨hactive, hforce⟩

/-- A step keeps the selection unless the packet it consumes is a `SETPATH` (R232): an idle step and an illegal packet
run no command. -/
theorem step_keeps_selection {s t : State} (h : step s = .next t)
    (hother : ∀ i rest, decodeBytes s.input = .command i rest → i.opcode ≠ 0x0A) :
    t.active = s.active ∧ t.force = s.force := by
  unfold step at h
  split at h
  · cases h; exact ⟨rfl, rfl⟩
  · cases h; exact ⟨rfl, rfl⟩
  next i rest hdecode =>
    have hkept := exec_keeps_selection (hother i rest hdecode) h
    rwa [consume_active, consume_force] at hkept

/-- The selection made at reset is that of the invariant, with `CTRL.FORCE = AUTO` (R35, R38, R232). -/
theorem reset_active : State.reset.active = selectPath .auto State.reset.params.hwAccelPresent := by
  obtain ⟨-, -, -, -, hselected, -⟩ := Proofs.resetMeetsInvariant
  exact hselected

end Sys2Proof.Machine

namespace Sys2Proof.Proofs

open Sys2Proof.Machine

/-- Settles O16: the selection at reset is `reset_active`, and a step whose packet is no `SETPATH` would have kept the
selection (`step_keeps_selection`). -/
theorem selectionChangesOnlyBySetpath : Obligations.SelectionChangesOnlyBySetpath := by
  refine ⟨reset_active, fun s t hstep hchanged => ?_⟩
  by_contra hnone
  obtain ⟨hactive, hforce⟩ := step_keeps_selection hstep fun i rest hdecode hopc =>
    hnone ⟨i.hnd, i.arg, i.pay, rest, eq_setpath_of_opcode hopc ▸ hdecode⟩
  exact hchanged.elim (· hactive) (· hforce)

end Sys2Proof.Proofs
